-- ==== Sys2Proof/Word.lean ====
section
/-! DEFINITION. The word types of the block and the two levels of its one-bit lines (R8, R11). -/

namespace Sys2Proof

/-- A 16-bit word: the DATA field, a table entry, `rsp_data` (R8, R54). Registers whose width is a
parameter of at most 16 bits are held in one, with the bits above their width zero (R9, log 5). -/
abbrev Word := BitVec 16

/-- A command word, 32 bits (R8, R54). -/
abbrev Cmd := BitVec 32

/-- One byte of a command word carried in pieces (R41). -/
abbrev Byte := BitVec 8

/-- The two levels of a one-bit line (R18). -/
inductive Level where
  | low
  | high
  deriving DecidableEq, Repr

end Sys2Proof
end

