-- ==== Sys2Proof/Config.lean ====
section
/-! DEFINITION. The build parameters of one instance of the block (R9), which of their values are
legal, and the default instance. Parameters the spec leaves OPEN with no default are free values:
opaque constants with no body (log 2). -/

namespace Sys2Proof

/-- The order in which a platform's transport carries the four bytes of a command word
(CMD_BYTE_ORDER, R9, R41; the two orders are log 10's). -/
inductive ByteOrder where
  | leastSignificantFirst
  | mostSignificantFirst
  deriving DecidableEq, Repr, Inhabited

/-- The five read-only tables (R8, R38): TABLE_ROM[t][i] is entry i of the list, TABLE_LEN[t] its
length. -/
structure Tables where
  freq     : List Word
  exp      : List Word
  log      : List Word
  semitone : List Word
  major    : List Word
  deriving DecidableEq, Repr

/-- The parameters of one instance (R9). SUM_W is derived from two of them. -/
structure Params where
  /-- ADC_W: width of one raw reading. -/
  adcW         : Nat
  /-- WINDOW_N: capacity of every window. -/
  windowN      : Nat
  /-- NUM_WIN: number of windows. -/
  numWin       : Nat
  /-- PWM_W: width of `pwm_cmp`. -/
  pwmW         : Nat
  /-- TABLE_ROM and TABLE_LEN. -/
  tables       : Tables
  /-- PWM_TOP: last count of a timer period. -/
  pwmTop       : Nat
  /-- PWM_IDLE_LEVEL: pin level while disabled. -/
  pwmIdleLevel : Level
  /-- CMD_BYTE_ORDER. -/
  cmdByteOrder : ByteOrder
  deriving DecidableEq, Repr

/-- TABLE_LEN[t] is in 1..65536 (R102). -/
abbrev LegalLength (rom : List Word) : Prop := 1 ≤ rom.length ∧ rom.length ≤ 65536

/-- Each entry is at most the next one: what R102 requires of SEMITONE. -/
abbrev NonDecreasing (rom : List Word) : Prop := rom.IsChain fun a b => a.toNat ≤ b.toNat

/-- What the table parameters must satisfy (R102). -/
abbrev Tables.Legal (t : Tables) : Prop :=
  LegalLength t.freq ∧ LegalLength t.exp ∧ LegalLength t.log ∧ LegalLength t.semitone ∧
    LegalLength t.major ∧ NonDecreasing t.semitone

/-- The legal ranges of the parameters (R9, R132). -/
abbrev Params.Legal (p : Params) : Prop :=
  (1 ≤ p.adcW ∧ p.adcW ≤ 16) ∧ (1 ≤ p.windowN ∧ p.windowN ≤ 65536) ∧
    (1 ≤ p.numWin ∧ p.numWin ≤ 16) ∧ (1 ≤ p.pwmW ∧ p.pwmW ≤ 16) ∧
    p.pwmTop < 2 ^ p.pwmW ∧ p.tables.Legal

namespace Config

/-- Free value: a raw length for table `t`. OPEN in the spec, no default (R9, D17; log 2). -/
opaque freeTableLen : Nat → Nat

/-- Free value: raw entry `i` of table `t`. OPEN in the spec, no default (R9, D17; log 2). -/
opaque freeTableEntry : Nat → Nat → Word

/-- Free value: a raw PWM_TOP. OPEN in the spec, no default (R9, D24; log 2). -/
opaque freePwmTop : Nat

/-- Free value: CMD_BYTE_ORDER. OPEN in the spec, no default (R9, D26; logs 2 and 10). -/
opaque freeByteOrder : ByteOrder

/-- Table `t` with free contents and a free length in 1..65536. -/
def openTable (t : Nat) : List Word :=
  (List.range (freeTableLen t % 65536 + 1)).map (freeTableEntry t)

/-- The running maximum of a list, from `m` on: non-decreasing, and the list itself if that already
is non-decreasing from `m` on. So a free list gives every legal SEMITONE table (R102, log 2). -/
def runningMax (m : Word) : List Word → List Word
  | [] => []
  | v :: vs => if m.toNat ≤ v.toNat then v :: runningMax v vs else m :: runningMax m vs

/-- The tables of the default instance: free, within R102. -/
def openTables : Tables where
  freq     := openTable 0
  exp      := openTable 1
  log      := openTable 2
  semitone := runningMax 0 (openTable 3)
  major    := openTable 4

/-- The instance of `State.reset`: the defaults of R9, and a free value for each parameter that R9
leaves OPEN with no default. -/
def default : Params where
  adcW         := 10
  windowN      := 4
  numWin       := 4
  pwmW         := 16
  tables       := openTables
  pwmTop       := freePwmTop % 2 ^ 16
  pwmIdleLevel := .low
  cmdByteOrder := freeByteOrder

end Config

end Sys2Proof
end

