-- ==== Sys2Proof/Machine/State.lean ====
section
/-! DEFINITION. The state of the block and of the environment timer, the reasons a step could stop,
and the state after reset (10_state.md, 60_exceptions.md R133, 70_reset_and_hazards.md). -/

namespace Sys2Proof.Machine

/-- One sampling window `win[w]` (R22). The slots are ADC_W-bit readings in 16-bit words, the sum and
the cursor are numbers within their widths (log 5). -/
structure Window where
  /-- `slot[0]` to `slot[WINDOW_N-1]`. -/
  slots : List Word
  /-- The running sum, SUM_W bits. -/
  sum   : Nat
  /-- The slot the next SAMPLE overwrites. -/
  cur   : Nat
  deriving DecidableEq, Repr

/-- The environment timer's state (R133). -/
structure Timer where
  /-- `tmr_cnt`: position in the current period. -/
  cnt    : Nat
  /-- `tmr_active`: the compare value of the current period. -/
  active : Word
  /-- `pwm_irq`: the period interrupt pulse. -/
  irq    : Bool
  deriving DecidableEq, Repr

/-- What the input ports hold at one rising edge (R35). -/
structure PortInput where
  rst      : Bool
  cmdValid : Bool
  cmd      : Cmd
  deriving DecidableEq, Repr

/-- The state. `cfg` and `inputs` are the model's own fields: the instance's parameters, which no step
changes (R33, log 1), and what the host will present at the coming edges, oldest first (log 3). -/
structure State where
  cfg       : Params
  /-- `win[0]` to `win[NUM_WIN-1]` (R22). -/
  wins      : List Window
  /-- `last_level` (R25). -/
  lastLevel : Level
  /-- `pwm_cmp` (R26). -/
  pwmCmp    : Word
  /-- `pwm_en` (R27). -/
  pwmEn     : Bool
  /-- `rsp_valid` (R29). -/
  rspValid  : Bool
  /-- `rsp_data` (R30). -/
  rspData   : Word
  /-- `rsp_err` (R31). -/
  rspErr    : Bool
  /-- The environment timer (R133). -/
  timer     : Timer
  inputs    : List PortInput
  deriving DecidableEq, Repr

/-- The faults of the machine: none. The block raises no exception and never stalls (R14, R130, R167;
log 11). -/
inductive Fault
  deriving DecidableEq, Repr

/-- The refusals of the machine. -/
inductive Refusal where
  /-- Raised only by an arm of `exec` whose instruction has no meaning yet: safe. No arm is left so. -/
  | notModelled (mnemonic : String)
  deriving DecidableEq, Repr

/-- A window after reset: zero slots, zero sum, cursor 0 (R22, R37). -/
def Window.zero (p : Params) : Window where
  slots := List.replicate p.windowN 0
  sum   := 0
  cur   := 0

/-- The timer after reset (R133). -/
def Timer.zero : Timer where
  cnt    := 0
  active := 0
  irq    := false

/-- ResetState (R37, R150) of the instance with parameters `p`, nothing presented yet. -/
def State.resetOf (p : Params) : State where
  cfg       := p
  wins      := List.replicate p.numWin (Window.zero p)
  lastLevel := .low
  pwmCmp    := 0
  pwmEn     := false
  rspValid  := false
  rspData   := 0
  rspErr    := false
  timer     := Timer.zero
  inputs    := []

/-- The machine right after reset: ResetState of the default instance (R9, R150; logs 2 and 3). -/
def State.reset : State := State.resetOf Config.default

end Sys2Proof.Machine
end

