-- ==== Sys2Proof/Machine/Flags.lean ====
section
/-! DEFINITION. The response registers. The block has no flags or condition codes (R32): `rsp_valid`,
`rsp_data` and `rsp_err` are its only status, and these are all the ways a step writes them
(R29, R30, R31, R126, R127). -/

namespace Sys2Proof.Machine

/-- The response of a valid result command: `rsp_data <- v; rsp_err <- 0; rsp_valid <- 1`. -/
def State.respond (s : State) (v : Word) : State :=
  { s with rspValid := true, rspData := v, rspErr := false }

/-- No response: `rsp_valid <- 0`, the data and the error bit kept (R127, D37). -/
def State.noResponse (s : State) : State :=
  { s with rspValid := false }

/-- `invalid()` of R126, the one outcome of a command with no meaning: `rsp_data <- 0; rsp_err <- 1;
rsp_valid <- 1`, nothing else. It is no exception (R14, R130). -/
def State.invalid (s : State) : State :=
  { s with rspValid := true, rspData := 0, rspErr := true }

end Sys2Proof.Machine
end

