-- ==== Sys2Proof/Syntax.lean ====
section
/-! DEFINITION. The instructions: one constructor per row of spec/opcode_table.json (R62). -/

namespace Sys2Proof

/-- The edge a POLL asks for (R18, R64). -/
inductive Edge where
  | rising
  | falling
  deriving DecidableEq, Repr

/-- The five lookup tables, in the order of R63. -/
inductive TableId where
  | freq
  | exp
  | log
  | semitone
  | major
  deriving DecidableEq, Repr

/-- A command with its operands (R68). A word that is not valid is no command and has no
constructor: the step gives it the effect of R126. -/
inductive Instr where
  /-- NOP (R123). -/
  | nop
  /-- SAMPLE w, raw (R74): the window's number and the raw reading. -/
  | sample (win : Nat) (raw : Word)
  /-- POLL edge, level (R90). -/
  | poll (edge : Edge) (level : Level)
  /-- MAP table, index (R101). -/
  | map (table : TableId) (index : Word)
  /-- PWM_ENABLE (R109). -/
  | pwmEnable
  /-- PWM_DISABLE (R111). -/
  | pwmDisable
  /-- PWM_SET value (R113). -/
  | pwmSet (value : Word)
  deriving DecidableEq, Repr

end Sys2Proof
end

