-- ==== Sys2Proof/WellFormed.lean ====
section
/-! DEFINITION. Which instruction terms are commands of an instance: every operand in the range the
spec gives it (R57, R60, R65, R69). Edge, level, table and index are in range by their types. -/

namespace Sys2Proof

/-- Every operand of the instruction fits its field in an instance with parameters `p`: the window is
below NUM_WIN, the reading below 2^ADC_W, the compare value below 2^PWM_W (R69). -/
def Instr.wellFormed (p : Params) : Instr → Bool
  | .nop => true
  | .sample win raw => decide (win < p.numWin) && decide (raw.toNat < 2 ^ p.adcW)
  | .poll _ _ => true
  | .map _ _ => true
  | .pwmEnable => true
  | .pwmDisable => true
  | .pwmSet value => decide (value.toNat < 2 ^ p.pwmW)

end Sys2Proof
end

