-- ==== Sys2Proof/Decode.lean ====
section
/-! DEFINITION. The command word: its fields, the code maps, the decoder (total, rejecting by name),
the encoder, and the assembly of a word from bytes (30_encoding.md). -/

namespace Sys2Proof

/-! ### Bit fields (R11, R15, R54) -/

/-- The low `n` bits of a word, the bits above them zero: `v[n-1:0]` (R11, R56). -/
def lowBits (n : Nat) (v : Word) : Word := BitVec.ofNat 16 (v.toNat % 2 ^ n)

/-- A number kept in a register of `n` bits (R11). -/
def narrow (n x : Nat) : Nat := x % 2 ^ n

/-- OP = cmd[31:28] (R15). -/
def opField (w : Cmd) : BitVec 4 := w.extractLsb' 28 4

/-- SEL = cmd[27:24] (R15). -/
def selField (w : Cmd) : BitVec 4 := w.extractLsb' 24 4

/-- RSV = cmd[23:16] (R15), ignored by every command (R67). -/
def rsvField (w : Cmd) : BitVec 8 := w.extractLsb' 16 8

/-- DATA = cmd[15:0] (R15). -/
def dataField (w : Cmd) : Word := w.extractLsb' 0 16

/-- The word with these fields, OP in the highest bits (R54). -/
def packCmd (op sel : BitVec 4) (rsv : BitVec 8) (data : Word) : Cmd := op ++ sel ++ rsv ++ data

/-! ### Code maps (R63, R64) -/

/-- LOW is 0 and HIGH is 1 (R64). -/
def Level.bit : Level → Bool
  | .low => false
  | .high => true

/-- The level of a bit (R64). -/
def Level.ofBit (b : Bool) : Level := if b then .high else .low

/-- RISING is 0 and FALLING is 1 (R64). -/
def Edge.bit : Edge → Bool
  | .rising => false
  | .falling => true

/-- The edge of a bit (R64). -/
def Edge.ofBit (b : Bool) : Edge := if b then .falling else .rising

/-- The table numbers (R63). -/
def TableId.number : TableId → Nat
  | .freq => 0
  | .exp => 1
  | .log => 2
  | .semitone => 3
  | .major => 4

/-- The table of a number, where R63 lists one. -/
def TableId.ofNumber : Nat → Option TableId
  | 0 => some .freq
  | 1 => some .exp
  | 2 => some .log
  | 3 => some .semitone
  | 4 => some .major
  | _ => none

/-! ### The decoder (R65, R68) -/

/-- Why a word is invalid (R125). The block does not record it: every reason has the one outcome of
R126 (R139). -/
inductive Reject where
  /-- OP is one of 0x7 to 0xF. -/
  | opcodeUnassigned
  /-- NOP, PWM_ENABLE, PWM_DISABLE or PWM_SET with SEL ≠ 0. -/
  | selNotZero
  /-- SAMPLE with SEL ≥ NUM_WIN. -/
  | windowOutOfRange
  /-- POLL with SEL[3:1] ≠ 0. -/
  | edgeSelOutOfRange
  /-- MAP with SEL ≥ 5. -/
  | tableOutOfRange
  deriving DecidableEq, Repr

/-- What a word decodes to: one command with its operands, or no command (R68). -/
inductive Decoded where
  | instr (i : Instr)
  | rejected (why : Reject)
  deriving DecidableEq, Repr

/-- A command that takes no selector: SEL must be 0 (R60, R61). -/
def decodeUnselected (sel : BitVec 4) (i : Instr) : Decoded :=
  if sel = 0 then .instr i else .rejected .selNotZero

/-- SAMPLE's operands: WIN = SEL, RAW = DATA[ADC_W-1:0] (R57). -/
def decodeSample (p : Params) (sel : BitVec 4) (data : Word) : Decoded :=
  if sel.toNat < p.numWin then .instr (.sample sel.toNat (lowBits p.adcW data))
  else .rejected .windowOutOfRange

/-- POLL's operands: EDGE = SEL[0], LEVEL = DATA[0], SEL[3:1] = 0 (R58). -/
def decodePoll (sel : BitVec 4) (data : Word) : Decoded :=
  if sel.extractLsb' 1 3 = 0 then
    .instr (.poll (Edge.ofBit (sel.getLsbD 0)) (Level.ofBit (data.getLsbD 0)))
  else .rejected .edgeSelOutOfRange

/-- MAP's operands: TABLE = SEL, INDEX = DATA (R59). -/
def decodeMap (sel : BitVec 4) (data : Word) : Decoded :=
  match TableId.ofNumber sel.toNat with
  | some t => .instr (.map t data)
  | none => .rejected .tableOutOfRange

/-- PWM_SET's operand: LEVEL = DATA[PWM_W-1:0], SEL = 0 (R60). -/
def decodePwmSet (p : Params) (sel : BitVec 4) (data : Word) : Decoded :=
  decodeUnselected sel (.pwmSet (lowBits p.pwmW data))

/-- Decode(cmd) of R68, with the opcode map of R62. -/
def decode (p : Params) (w : Cmd) : Decoded :=
  match (opField w).toNat with
  | 0 => decodeUnselected (selField w) .nop
  | 1 => decodeSample p (selField w) (dataField w)
  | 2 => decodePoll (selField w) (dataField w)
  | 3 => decodeMap (selField w) (dataField w)
  | 4 => decodeUnselected (selField w) .pwmEnable
  | 5 => decodeUnselected (selField w) .pwmDisable
  | 6 => decodePwmSet p (selField w) (dataField w)
  | _ => .rejected .opcodeUnassigned

/-! ### The encoder (R72) -/

/-- The word of a command, with RSV and the ignored bits 0 (R72). -/
def encode : Instr → Cmd
  | .nop => packCmd 0 0 0 0
  | .sample win raw => packCmd 1 (BitVec.ofNat 4 win) 0 raw
  | .poll edge level =>
      packCmd 2 (BitVec.ofNat 4 edge.bit.toNat) 0 (BitVec.ofNat 16 level.bit.toNat)
  | .map table index => packCmd 3 (BitVec.ofNat 4 table.number) 0 index
  | .pwmEnable => packCmd 4 0 0 0
  | .pwmDisable => packCmd 5 0 0 0
  | .pwmSet value => packCmd 6 0 0 value

/-! ### A word carried in bytes (R41, R165) -/

/-- The word whose bytes, from bits [7:0] upward, are these. -/
def cmdOfBytes (b0 b1 b2 b3 : Byte) : Cmd := b3 ++ b2 ++ b1 ++ b0

/-- The word a platform assembles from four bytes in their order of arrival (R165, log 10). -/
def assembleBytes (order : ByteOrder) (first second third fourth : Byte) : Cmd :=
  match order with
  | .leastSignificantFirst => cmdOfBytes first second third fourth
  | .mostSignificantFirst => cmdOfBytes fourth third second first

/-- Byte `k` of a word: bits [8k+7:8k]. -/
def cmdByte (w : Cmd) (k : Nat) : Byte := w.extractLsb' (8 * k) 8

/-! ### The decoder on a row of spec/opcode_table.json -/

/-- The instruction the decoder of the default instance reads from the 32-bit word `w`, given `nbits`
bits of it (log 17). -/
def decodeTableWord (nbits w : Nat) : Option Instr :=
  match decode Config.default (BitVec.ofNat 32 (w % 2 ^ nbits)) with
  | .instr i => some i
  | .rejected _ => none

end Sys2Proof
end

