-- ==== Sys2Proof/Machine/Operands.lean ====
section
/-! DEFINITION. The operand forms: the raw reading, a window by its number, a table entry behind the
index-saturate stage, the compare value (R56 to R60, R12, R13, R104). -/

namespace Sys2Proof.Machine

/-- A raw reading is ADC_W bits of its word (R57, R74; log 7). -/
def rawOperand (p : Params) (data : Word) : Word := lowBits p.adcW data

/-- A compare value is PWM_W bits of its word: `DATA[PWM_W-1:0]` (R60, R113; log 7). -/
def levelOperand (p : Params) (data : Word) : Word := lowBits p.pwmW data

/-- `win[w]` (R12). Of a window the state does not hold, which no legal state lacks, the reset value
(log 6). -/
def State.window (s : State) (w : Nat) : Window := s.wins.getD w (Window.zero s.cfg)

/-- `win[w] <- v`, every other window kept (R23). -/
def State.setWindow (s : State) (w : Nat) (v : Window) : State :=
  { s with wins := s.wins.set w v }

/-- TABLE_ROM[t], every entry of it (R38, R63). -/
def tableRom (p : Params) : TableId → List Word
  | .freq => p.tables.freq
  | .exp => p.tables.exp
  | .log => p.tables.log
  | .semitone => p.tables.semitone
  | .major => p.tables.major

/-- TABLE_LEN[t] (R9). -/
def tableLen (p : Params) (t : TableId) : Nat := (tableRom p t).length

/-- RomRead(t, i) (R13). The saturate stage in front of it keeps `i` below TABLE_LEN[t]. -/
def romRead (p : Params) (t : TableId) (i : Nat) : Word := (tableRom p t).getD i 0

/-- The index-saturate stage: `min(index, TABLE_LEN[t] - 1)` (R101, R104). -/
def saturateIndex (p : Params) (t : TableId) (index : Word) : Nat :=
  min index.toNat (tableLen p t - 1)

end Sys2Proof.Machine
end

