-- ==== Sys2Proof/Machine/Ops.lean ====
section
/-! DEFINITION. The shared operations: the widths, the circular sum accumulator, the level latch, the
driver's two registers, and what an edge fetches from the input ports. Taking an exception would stand
here: the block has none, and its one outcome for a command with no meaning is `State.invalid` (R14,
R126, R130). -/

namespace Sys2Proof.Machine

/-! ### Widths (R9, R11) -/

/-- The smallest `k` with `n ≤ 2^k` (R11). -/
def clog2 (n : Nat) : Nat := if n ≤ 1 then 0 else Nat.log2 (n - 1) + 1

/-- SUM_W = ADC_W + clog2(WINDOW_N) (R9). -/
def sumWidth (p : Params) : Nat := p.adcW + clog2 p.windowN

/-! ### The circular sum accumulator (R76) -/

/-- The slot at the cursor, about to be overwritten. -/
def Window.evicted (v : Window) : Word := v.slots.getD v.cur 0

/-- The updated sum: exact, then kept in the `width` bits of its register (R76, R79). -/
def updatedSum (width sum raw evicted : Nat) : Nat :=
  (((sum : Int) + raw - evicted) % (2 ^ width : Nat)).toNat

/-- A window after one more reading (R76): the slot at the cursor overwritten, the sum updated
incrementally, the cursor advanced modulo WINDOW_N. -/
def Window.push (p : Params) (raw : Word) (v : Window) : Window where
  slots := v.slots.set v.cur raw
  sum   := updatedSum (sumWidth p) v.sum raw.toNat v.evicted.toNat
  cur   := (v.cur + 1) % p.windowN

/-- The running average, the division truncating: `zext_16(sum div WINDOW_N)` (R76). -/
def Window.average (p : Params) (v : Window) : Word := BitVec.ofNat 16 (v.sum / p.windowN)

/-! ### The level latch and the driver's registers -/

/-- `last_level <- level` (R90, R92). -/
def State.latch (s : State) (level : Level) : State := { s with lastLevel := level }

/-- `pwm_en <- en` (R109, R111). -/
def State.setEnable (s : State) (en : Bool) : State := { s with pwmEn := en }

/-- `pwm_cmp <- v`, all PWM_W bits at one edge (R42, R113). -/
def State.setCompare (s : State) (v : Word) : State := { s with pwmCmp := v }

/-! ### The input ports at an edge (R35, R55, R127) -/

/-- An edge with nothing presented. -/
def PortInput.idle : PortInput := { rst := false, cmdValid := false, cmd := 0 }

/-- An edge that presents a command word. -/
def PortInput.command (w : Cmd) : PortInput := { rst := false, cmdValid := true, cmd := w }

/-- What the ports hold at the next edge: the head of the stream, and an idle edge when the host
presents nothing more (log 3). -/
def State.nextInput (s : State) : PortInput := s.inputs.headD PortInput.idle

/-- The state with the head of the input stream consumed. -/
def State.accept (s : State) : State := { s with inputs := s.inputs.tail }

/-- What an edge makes the block do. -/
inductive Fetched where
  /-- `rst = 1`: it wins over any command (R139, R151). -/
  | reset
  /-- `cmd_valid = 0` (R55). -/
  | idle
  /-- A command word that is not valid (R125). -/
  | invalid (why : Reject)
  /-- A valid command. -/
  | command (i : Instr)
  deriving DecidableEq, Repr

/-- The case split of R127 on `rst`, `cmd_valid` and `Decode(cmd)`. -/
def State.fetch (s : State) : Fetched :=
  if s.nextInput.rst then .reset
  else if s.nextInput.cmdValid then
    match decode s.cfg s.nextInput.cmd with
    | .instr i => .command i
    | .rejected why => .invalid why
  else .idle

/-- The block takes ResetState, its parameters and the rest of the input stream kept (R149, R150). -/
def State.resetBlock (s : State) : State := { State.resetOf s.cfg with inputs := s.inputs }

/-! ### The host's side of the ports -/

/-- The host presents `e` at the next edge, before what it was going to present. -/
def State.present (s : State) (e : PortInput) : State := { s with inputs := e :: s.inputs }

/-- A platform that carries the word in four bytes presents the whole word, assembled in the order
CMD_BYTE_ORDER (R41, R165; log 10). -/
def State.presentBytes (s : State) (first second third fourth : Byte) : State :=
  s.present (.command (assembleBytes s.cfg.cmdByteOrder first second third fourth))

/-! ### Outcomes -/

/-- Apply `f` to the next state, where there is one. -/
def onNext (f : State → State) :
    Host.Outcome State Fault Refusal → Host.Outcome State Fault Refusal
  | .next s => .next (f s)
  | .fault r => .fault r
  | .refused r => .refused r

end Sys2Proof.Machine
end

