-- ==== Sys2Proof/Machine/EdgeDetector.lean ====
section
/-! DEFINITION. POLL (41_edge_detector.md). -/

namespace Sys2Proof.Machine

/-- The comparator of R90 on the latched level, the level presented and the edge asked for. -/
def triggered (last level : Level) (edge : Edge) : Bool :=
  let changed := last.bit ^^ level.bit
  let correct := level.bit ^^ edge.bit
  changed && correct

/-- POLL edge, level (R90): answer the trigger bit, and latch the level whatever it is (R92). -/
def execPoll (edge : Edge) (level : Level) (s : State) : Host.Outcome State Fault Refusal :=
  .next ((s.latch level).respond (BitVec.ofNat 16 (triggered s.lastLevel level edge).toNat))

end Sys2Proof.Machine
end

