-- ==== Sys2Proof/Machine/Mapper.lean ====
section
/-! DEFINITION. MAP (42_lookup_mapper.md). -/

namespace Sys2Proof.Machine

/-- MAP table, index (R101): answer the table's entry at the saturated index (R104). -/
def execMap (table : TableId) (index : Word) (s : State) : Host.Outcome State Fault Refusal :=
  .next (s.respond (romRead s.cfg table (saturateIndex s.cfg table index)))

end Sys2Proof.Machine
end

