-- ==== Sys2Proof/Machine/Nop.lean ====
section
/-! DEFINITION. NOP (44_nop_invalid.md). -/

namespace Sys2Proof.Machine

/-- NOP: no component state changes and no response data is written (R123). -/
def execNop (s : State) : Host.Outcome State Fault Refusal := .next s.noResponse

end Sys2Proof.Machine
end

