-- ==== Sys2Proof/Machine/Pwm.lean ====
section
/-! DEFINITION. PWM_ENABLE, PWM_DISABLE and PWM_SET (43_pwm_writer.md). None of the three writes the
response data (R118, R120). -/

namespace Sys2Proof.Machine

/-- PWM_ENABLE: `pwm_en <- 1` (R109). -/
def execPwmEnable (s : State) : Host.Outcome State Fault Refusal :=
  .next (s.setEnable true).noResponse

/-- PWM_DISABLE: `pwm_en <- 0`, the compare value kept (R111). -/
def execPwmDisable (s : State) : Host.Outcome State Fault Refusal :=
  .next (s.setEnable false).noResponse

/-- PWM_SET value: `pwm_cmp <- DATA[PWM_W-1:0]`, whether the driver is enabled or not (R113, R116). -/
def execPwmSet (value : Word) (s : State) : Host.Outcome State Fault Refusal :=
  .next (s.setCompare (levelOperand s.cfg value)).noResponse

end Sys2Proof.Machine
end

