-- ==== Sys2Proof/Machine/Sampler.lean ====
section
/-! DEFINITION. SAMPLE (40_sampler.md). -/

namespace Sys2Proof.Machine

/-- SAMPLE w, raw (R76): push the reading into its window, answer the average of the updated window
(R77). A window number of NUM_WIN or more makes no SAMPLE but an invalid command (R80; log 7). -/
def execSample (win : Nat) (raw : Word) (s : State) : Host.Outcome State Fault Refusal :=
  if win < s.cfg.numWin then
    let v := (s.window win).push s.cfg (rawOperand s.cfg raw)
    .next ((s.setWindow win v).respond (v.average s.cfg))
  else .next s.invalid

end Sys2Proof.Machine
end

