-- ==== Sys2Proof/Machine/Dispatch.lean ====
section
/-! DEFINITION. One arm per instruction: the case split of R127 over the commands. -/

namespace Sys2Proof.Machine

def exec (i : Instr) (s : State) : Host.Outcome State Fault Refusal :=
  match i with
  | .nop => Sys2Proof.Machine.execNop s
  | .sample win raw => Sys2Proof.Machine.execSample win raw s
  | .poll edge level => Sys2Proof.Machine.execPoll edge level s
  | .map table index => Sys2Proof.Machine.execMap table index s
  | .pwmEnable => Sys2Proof.Machine.execPwmEnable s
  | .pwmDisable => Sys2Proof.Machine.execPwmDisable s
  | .pwmSet value => Sys2Proof.Machine.execPwmSet value s

end Sys2Proof.Machine
end

