-- ==== Sys2Proof/Machine/Timer.lean ====
section
/-! DEFINITION. The environment timer: its step and its pin (60_exceptions.md, R131 to R138; log 8). It
is outside the block (R7), and no command's meaning reads it. -/

namespace Sys2Proof.Machine

/-- The output port `pwm_cmp_o` (R26, R35). -/
def State.pwmCmpO (s : State) : Word := s.pwmCmp

/-- The output port `pwm_en_o` (R27, R35). -/
def State.pwmEnO (s : State) : Bool := s.pwmEn

/-- TimerStep(rst, en, cmp) of R134, `tmr_cnt` kept in its PWM_W bits (log 5). -/
def timerStep (p : Params) (rst en : Bool) (cmp : Word) (t : Timer) : Timer :=
  if rst then Timer.zero
  else if en = false then { cnt := 0, active := cmp, irq := false }
  else if t.cnt = p.pwmTop then { cnt := 0, active := cmp, irq := true }
  else { cnt := narrow p.pwmW (t.cnt + 1), active := t.active, irq := false }

/-- The timer after the next edge: from its own pre-edge state and the block's pre-edge outputs
(R127, R134). -/
def State.timerAfter (s : State) : Timer :=
  timerStep s.cfg s.nextInput.rst s.pwmEnO s.pwmCmpO s.timer

/-- The state with its timer replaced. -/
def State.withTimer (s : State) (t : Timer) : State := { s with timer := t }

/-- `pwm_pin`, a function of the current state (R136). -/
def State.pwmPin (s : State) : Level :=
  if s.pwmEn then (if s.timer.cnt < s.timer.active.toNat then .high else .low)
  else s.cfg.pwmIdleLevel

end Sys2Proof.Machine
end

