-- ==== Sys2Proof/Machine/Step.lean ====
section
/-! DEFINITION. The clock step: one rising edge of `clk` (R127). -/

namespace Sys2Proof.Machine

/-- What the block does at the next edge (R127). -/
def blockEdge (s : State) : Host.Outcome State Fault Refusal :=
  match s.fetch with
  | .reset => .next s.accept.resetBlock
  | .idle => .next s.accept.noResponse
  | .invalid _ => .next s.accept.invalid
  | .command i => exec i s.accept

/-- One clock step: the block and the environment timer move at the same edge, each from the pre-edge
state (R12, R127). -/
def step (s : State) : Host.Outcome State Fault Refusal :=
  onNext (fun t => t.withTimer s.timerAfter) (blockEdge s)

/-- The word `w` of `nbits` bits presented on the command port at the next edge (log 4). -/
def State.withFetchWord (s : State) (nbits w : Nat) : State :=
  s.present (.command (BitVec.ofNat 32 (w % 2 ^ nbits)))

end Sys2Proof.Machine
end

