-- ==== Sys2Proof/Machine/Assembler.lean ====
section
/-! DEFINITION. The assembler of R69 to R71: one line of text, one command word. It serves test vectors
and programs; the block itself never sees text. Blanks are log 15's. -/

namespace Sys2Proof.Machine

/-- What one line assembles to. -/
inductive AsmLine where
  /-- Nothing but blanks and a comment. -/
  | blank
  /-- One command. -/
  | command (i : Instr)
  /-- No command of R69, or an operand that does not fit its field. -/
  | refused
  deriving DecidableEq, Repr

/-- A space or a tab. -/
def isBlank (c : Char) : Bool := c == ' ' || c == '\t'

/-- The text with the blanks at both ends removed. -/
def trimBlanks (l : List Char) : List Char :=
  ((l.dropWhile isBlank).reverse.dropWhile isBlank).reverse

/-- The text before a comment: `;` starts one (R69). -/
def stripComment (l : List Char) : List Char := l.takeWhile (· != ';')

/-- The operands, separated by commas (R69), each trimmed. No text gives no operand. -/
def splitOperands (l : List Char) : List (List Char) :=
  if (trimBlanks l).isEmpty then []
  else (l.splitOn ',').map trimBlanks

/-- The value of a digit: `0` to `9`, and the letters of a hexadecimal digit in either case. -/
def digitValue (c : Char) : Option Nat :=
  if '0' ≤ c ∧ c ≤ '9' then some (c.toNat - '0'.toNat)
  else if 'a' ≤ c ∧ c ≤ 'f' then some (c.toNat - 'a'.toNat + 10)
  else if 'A' ≤ c ∧ c ≤ 'F' then some (c.toNat - 'A'.toNat + 10)
  else none

/-- The number whose digits in `base` continue `acc`. -/
def parseDigits (base acc : Nat) : List Char → Option Nat
  | [] => some acc
  | c :: cs =>
    match digitValue c with
    | some d => if d < base then parseDigits base (base * acc + d) cs else none
    | none => none

/-- A literal: decimal, or hexadecimal with a `0x` prefix (R70). -/
def parseLiteral : List Char → Option Nat
  | [] => none
  | '0' :: 'x' :: c :: cs => parseDigits 16 0 (c :: cs)
  | c :: cs => parseDigits 10 0 (c :: cs)

/-- A literal that fits `n` bits; any other is refused (R69). -/
def parseField (n : Nat) (l : List Char) : Option Word :=
  match parseLiteral l with
  | some v => if v < 2 ^ n then some (BitVec.ofNat 16 v) else none
  | none => none

/-- A window number below NUM_WIN; any other is refused (R69). -/
def parseWindow (p : Params) (l : List Char) : Option Nat :=
  match parseLiteral l with
  | some w => if w < p.numWin then some w else none
  | none => none

/-- `RISING` or `FALLING` (R69). -/
def parseEdge (l : List Char) : Option Edge :=
  if l = "RISING".toList then some .rising
  else if l = "FALLING".toList then some .falling
  else none

/-- `LOW`, `HIGH`, `0` or `1` (R69). -/
def parseLevel (l : List Char) : Option Level :=
  if l = "LOW".toList ∨ l = "0".toList then some .low
  else if l = "HIGH".toList ∨ l = "1".toList then some .high
  else none

/-- The table names of R69. -/
def parseTable (l : List Char) : Option TableId :=
  if l = "FREQ".toList then some .freq
  else if l = "EXP".toList then some .exp
  else if l = "LOG".toList then some .log
  else if l = "SEMITONE".toList then some .semitone
  else if l = "MAJOR".toList then some .major
  else none

/-- A command from its mnemonic and operands: the table of R69. -/
def parseCommand (p : Params) (mnemonic : List Char) (operands : List (List Char)) :
    Option Instr :=
  match operands with
  | [] =>
    if mnemonic = "NOP".toList then some .nop
    else if mnemonic = "PWM_ENABLE".toList then some .pwmEnable
    else if mnemonic = "PWM_DISABLE".toList then some .pwmDisable
    else none
  | [a] =>
    if mnemonic = "PWM_SET".toList then (parseField p.pwmW a).map .pwmSet else none
  | [a, b] =>
    if mnemonic = "SAMPLE".toList then
      (parseWindow p a).bind fun w => (parseField p.adcW b).map (.sample w)
    else if mnemonic = "POLL".toList then
      (parseEdge a).bind fun e => (parseLevel b).map (.poll e)
    else if mnemonic = "MAP".toList then
      (parseTable a).bind fun t => (parseField 16 b).map (.map t)
    else none
  | _ => none

/-- The line of a command, or a refusal where there is none. -/
def asmLineOf : Option Instr → AsmLine
  | some i => .command i
  | none => .refused

/-- One line of text (R69). -/
def parseLine (p : Params) (line : List Char) : AsmLine :=
  let text := trimBlanks (stripComment line)
  if text.isEmpty then .blank
  else
    asmLineOf (parseCommand p (text.takeWhile (!isBlank ·))
      (splitOperands (text.dropWhile (!isBlank ·))))

/-- The word of a line, where it holds a command: RSV and the unused bits 0 (R69, R72). -/
def assembleLine (p : Params) (line : List Char) : Option Cmd :=
  match parseLine p line with
  | .command i => some (encode i)
  | .blank => none
  | .refused => none

end Sys2Proof.Machine
end

