-- ==== Sys2Proof/Safety.lean ====
section
/-! DEFINITION. What a sound state is, what a run is, and the notions the statements use: a window's
readings in a stream of port inputs, and which inputs keep the driver enabled or answer a result. -/

namespace Sys2Proof.Machine

/-! ### Valid words -/

/-- Valid(cmd) of R65, on the word's fields. -/
def validWord (p : Params) (w : Cmd) : Prop :=
  match (opField w).toNat with
  | 0 => selField w = 0
  | 1 => (selField w).toNat < p.numWin
  | 2 => (selField w).extractLsb' 1 3 = 0
  | 3 => (selField w).toNat ≤ 4
  | 4 => selField w = 0
  | 5 => selField w = 0
  | 6 => selField w = 0
  | _ => False

/-! ### The state invariant -/

/-- The total of a window's slots, as an exact natural number (R24). -/
def Window.total (v : Window) : Nat := (v.slots.map BitVec.toNat).sum

/-- A window of an instance: WINDOW_N slots of ADC_W bits, the sum their total, the cursor a slot's
index (R22, R24). -/
structure Window.Ok (p : Params) (v : Window) : Prop where
  slots_length : v.slots.length = p.windowN
  slots_fit    : ∀ r ∈ v.slots, r.toNat < 2 ^ p.adcW
  sum_total    : v.sum = v.total
  cur_lt       : v.cur < p.windowN

/-- The invariant of the machine: a legal instance (R9), its windows sound (R24), every register within
its width (R26, R133), the count within the period (R133), the interrupt pulse only at a period's
start (R135), the error bit only with data 0 (R126). -/
structure State.Inv (s : State) : Prop where
  cfg_legal    : s.cfg.Legal
  wins_length  : s.wins.length = s.cfg.numWin
  wins_ok      : ∀ v ∈ s.wins, Window.Ok s.cfg v
  cmp_fits     : s.pwmCmp.toNat < 2 ^ s.cfg.pwmW
  cnt_le       : s.timer.cnt ≤ s.cfg.pwmTop
  active_fits  : s.timer.active.toNat < 2 ^ s.cfg.pwmW
  irq_at_start : s.timer.irq = true → s.timer.cnt = 0
  err_data     : s.rspErr = true → s.rspData = 0

/-! ### Runs -/

/-- `n` edges of the machine from `s` end in `t`. -/
def Reaches (n : Nat) (s t : State) : Prop := Host.Core.run Sys2Proof.core n s = .next t

/-- Commands one after the other, each on the state the one before left. -/
def execAll : List Instr → State → Host.Outcome State Fault Refusal
  | [], s => .next s
  | i :: is, s =>
    match exec i s with
    | .next t => execAll is t
    | .fault r => .fault r
    | .refused r => .refused r

/-! ### What a port input asks for -/

/-- The command a port input presents to an instance, if it presents a valid one and no reset. -/
def PortInput.instr? (p : Params) (e : PortInput) : Option Instr :=
  if e.rst = false ∧ e.cmdValid = true then
    match decode p e.cmd with
    | .instr i => some i
    | .rejected _ => none
  else none

/-- The reading a port input adds to window `w`. -/
def PortInput.reading? (p : Params) (w : Nat) (e : PortInput) : Option Nat :=
  match e.instr? p with
  | some (.sample w' raw) => if w' = w then some raw.toNat else none
  | _ => none

/-- The readings a stream of port inputs adds to window `w`, oldest first. -/
def readings (p : Params) (w : Nat) (es : List PortInput) : List Nat :=
  es.filterMap (PortInput.reading? p w)

/-- The last `n` readings of a list. -/
def lastReadings (n : Nat) (rs : List Nat) : List Nat := rs.reverse.take n

/-- The port input presents a result command: a valid SAMPLE, POLL or MAP, or an invalid word
(R19). -/
def PortInput.isResult (p : Params) (e : PortInput) : Prop :=
  e.rst = false ∧ e.cmdValid = true ∧
    match decode p e.cmd with
    | .instr (.sample _ _) | .instr (.poll _ _) | .instr (.map _ _) => True
    | .rejected _ => True
    | .instr _ => False

/-- The port input neither resets the block nor disables the driver. -/
def PortInput.keepsEnabled (p : Params) (e : PortInput) : Prop :=
  e.rst = false ∧ e.instr? p ≠ some .pwmDisable

/-- The compare value a port input writes, if it presents a PWM_SET. -/
def PortInput.compare? (p : Params) (e : PortInput) : Option Word :=
  match e.instr? p with
  | some (.pwmSet v) => some v
  | _ => none

end Sys2Proof.Machine
end

