-- ==== Sys2Proof/Certificates/Slice0/Obligations.lean ====
section
/-! DEFINITION. The statements for the provers, one `def Obligations.<Name> : Prop` each. Each docstring
names the rule of spec/ it formalises. -/

open Sys2Proof Sys2Proof.Machine

/-! ### Encoding -/

/-- R72, R68: decoding the encoder's word gives the instruction back, every operand at every value. -/
def Obligations.DecodeOfEncodeIsIdentity : Prop :=
  ∀ (p : Params) (i : Instr), p.Legal → i.wellFormed p = true → decode p (encode i) = .instr i

/-- R67, R72: the encoder's word for a decoded word is that word with its ignored bits cleared. -/
def Obligations.EncodeOfDecodeClearsIgnoredBits : Prop :=
  ∀ (p : Params) (w : Cmd) (i : Instr), p.Legal → decode p w = .instr i →
    i.wellFormed p = true ∧ opField (encode i) = opField w ∧ selField (encode i) = selField w ∧
      rsvField (encode i) = 0 ∧
      (opField w = 1 → dataField (encode i) = lowBits p.adcW (dataField w)) ∧
      (opField w = 2 → dataField (encode i) = lowBits 1 (dataField w)) ∧
      (opField w = 3 → dataField (encode i) = dataField w) ∧
      (opField w = 6 → dataField (encode i) = lowBits p.pwmW (dataField w)) ∧
      (opField w = 0 ∨ opField w = 4 ∨ opField w = 5 → dataField (encode i) = 0)

/-- R65, R68: every word decodes to the one command its opcode names, with the operands of its fields,
or, when it is not valid, to none. -/
def Obligations.EveryWordDecodesByItsFields : Prop :=
  ∀ (p : Params) (w : Cmd),
    (¬validWord p w → ∃ why, decode p w = .rejected why) ∧
    (validWord p w →
      (opField w = 0 ∧ decode p w = .instr .nop) ∨
      (opField w = 1 ∧
        decode p w = .instr (.sample (selField w).toNat (lowBits p.adcW (dataField w)))) ∨
      (opField w = 2 ∧
        decode p w = .instr (.poll (if (selField w).getLsbD 0 then .falling else .rising)
          (if (dataField w).getLsbD 0 then .high else .low))) ∨
      (opField w = 3 ∧ ∃ t : TableId, t.number = (selField w).toNat ∧
        decode p w = .instr (.map t (dataField w))) ∨
      (opField w = 4 ∧ decode p w = .instr .pwmEnable) ∨
      (opField w = 5 ∧ decode p w = .instr .pwmDisable) ∨
      (opField w = 6 ∧ decode p w = .instr (.pwmSet (lowBits p.pwmW (dataField w)))))

/-- R67: two words that differ only in ignored bits have identical effects. -/
def Obligations.IgnoredBitsHaveNoEffect : Prop :=
  ∀ (s : State) (w w' : Cmd), opField w = opField w' → selField w = selField w' →
    (opField w = 1 → lowBits s.cfg.adcW (dataField w) = lowBits s.cfg.adcW (dataField w')) →
    (opField w = 2 → (dataField w).getLsbD 0 = (dataField w').getLsbD 0) →
    (opField w = 3 → dataField w = dataField w') →
    (opField w = 6 → lowBits s.cfg.pwmW (dataField w) = lowBits s.cfg.pwmW (dataField w')) →
    step (s.present (.command w)) = step (s.present (.command w'))

/-- R73: the encoding examples, through the assembler and the decoder. -/
def Obligations.EncodingExamples : Prop :=
  assembleLine Config.default "NOP".toList = some 0x00000000 ∧
  assembleLine Config.default "SAMPLE 0, 100".toList = some 0x10000064 ∧
  assembleLine Config.default "SAMPLE 3, 1023".toList = some 0x130003FF ∧
  assembleLine Config.default "POLL RISING, HIGH".toList = some 0x20000001 ∧
  assembleLine Config.default "POLL FALLING, LOW".toList = some 0x21000000 ∧
  assembleLine Config.default "MAP SEMITONE, 5".toList = some 0x33000005 ∧
  assembleLine Config.default "MAP MAJOR, 0xFFFF".toList = some 0x3400FFFF ∧
  assembleLine Config.default "PWM_ENABLE".toList = some 0x40000000 ∧
  assembleLine Config.default "PWM_DISABLE".toList = some 0x50000000 ∧
  assembleLine Config.default "PWM_SET 0x8000".toList = some 0x60008000 ∧
  decode Config.default 0x70000000 = .rejected .opcodeUnassigned ∧
  decode Config.default 0x35000000 = .rejected .tableOutOfRange ∧
  decode Config.default 0x22000001 = .rejected .edgeSelOutOfRange ∧
  decode Config.default 0x01000000 = .rejected .selNotZero ∧
  decode Config.default 0x10FF0064 = .instr (.sample 0 100) ∧
  decode Config.default 0x10000064 = .instr (.sample 0 100) ∧
  decode Config.default 0x20000001 = .instr (.poll .rising .high) ∧
  decode Config.default 0x33000005 = .instr (.map .semitone 5) ∧
  decode Config.default 0x60008000 = .instr (.pwmSet 0x8000)

/-- R69: a command the assembler accepts is well formed, and its word is the encoder's. That an operand
which does not fit is refused, not cut, is `AssemblerWritesEachFieldOrRefuses`. -/
def Obligations.AssembledCommandsAreWellFormed : Prop :=
  ∀ (p : Params) (line : List Char) (i : Instr), parseLine p line = .command i →
    i.wellFormed p = true ∧ assembleLine p line = some (encode i)

/-- R165: a platform that carries a word in bytes, in its order, presents that whole word. The two orders
are the model's choice (log 10). -/
def Obligations.BytesPresentTheWholeWord : Prop :=
  ∀ (s : State) (w : Cmd),
    (s.cfg.cmdByteOrder = .leastSignificantFirst →
      s.presentBytes (w.extractLsb' 0 8) (w.extractLsb' 8 8) (w.extractLsb' 16 8)
        (w.extractLsb' 24 8) = s.present (.command w)) ∧
    (s.cfg.cmdByteOrder = .mostSignificantFirst →
      s.presentBytes (w.extractLsb' 24 8) (w.extractLsb' 16 8) (w.extractLsb' 8 8)
        (w.extractLsb' 0 8) = s.present (.command w))

/-! ### The clock step and reset -/

/-- R127: a step at which a valid command is presented runs that command on the pre-edge state, with the
input consumed and the timer moved from its own pre-edge state. -/
def Obligations.StepRunsTheDecodedCommand : Prop :=
  ∀ (s : State) (e : PortInput) (rest : List PortInput) (i : Instr),
    s.inputs = e :: rest → e.rst = false → e.cmdValid = true → decode s.cfg e.cmd = .instr i →
    step s = onNext (fun t => { t with timer := timerStep s.cfg false s.pwmEn s.pwmCmp s.timer })
      (exec i { s with inputs := rest })

/-- R124: an edge with `cmd_valid = 0`, whatever `cmd` holds, and an edge that accepts a NOP have the
same effect. -/
def Obligations.IdleEdgeActsAsNop : Prop :=
  ∀ (s : State) (c : Cmd),
    step (s.present { rst := false, cmdValid := false, cmd := c }) =
      step (s.present (.command (encode .nop)))

/-- R66, R126: an invalid command answers with data 0 and the error bit, and changes nothing else of the
block. -/
def Obligations.InvalidCommandOnlyResponds : Prop :=
  ∀ (s : State) (w : Cmd), ¬validWord s.cfg w →
    step (s.present (.command w)) =
      .next { s with rspData := 0, rspErr := true, rspValid := true,
                     timer := timerStep s.cfg false s.pwmEn s.pwmCmp s.timer }

/-- R149, R150, R151: at an edge with `rst = 1` the block and the timer take their reset state, and a
command presented there is discarded. -/
def Obligations.ResetEdgeDiscardsTheCommand : Prop :=
  ∀ (s : State) (e : PortInput), e.rst = true →
    ∃ t, step (s.present e) = .next t ∧ t.pwmPin = s.cfg.pwmIdleLevel ∧
      t = { cfg := s.cfg
            wins := List.replicate s.cfg.numWin
              { slots := List.replicate s.cfg.windowN 0, sum := 0, cur := 0 }
            lastLevel := .low, pwmCmp := 0, pwmEn := false
            rspValid := false, rspData := 0, rspErr := false
            timer := { cnt := 0, active := 0, irq := false }
            inputs := s.inputs }

/-- R37: every element's reset value, window by window and slot by slot. -/
def Obligations.ResetStateValues : Prop :=
  ∀ p : Params,
    (∀ w, w < p.numWin → ∃ v, (State.resetOf p).wins[w]? = some v ∧ v.sum = 0 ∧ v.cur = 0 ∧
      v.slots.length = p.windowN ∧ ∀ k, k < p.windowN → v.slots[k]? = some 0) ∧
    (State.resetOf p).wins.length = p.numWin ∧
    (State.resetOf p).lastLevel = .low ∧ (State.resetOf p).pwmCmp = 0 ∧
    (State.resetOf p).pwmEn = false ∧ (State.resetOf p).rspValid = false ∧
    (State.resetOf p).rspData = 0 ∧ (State.resetOf p).rspErr = false

/-- R167: every command completes at the edge that accepts it. After any number of edges the machine is in
a next state, one input per edge consumed and the parameters unchanged. -/
def Obligations.MachineNeverStops : Prop :=
  ∀ (n : Nat) (s : State),
    ∃ t, Reaches n s t ∧ t.inputs = s.inputs.drop n ∧ t.cfg = s.cfg

/-- The invariant of the machine is kept by every step, whatever the host presents. -/
def Obligations.StepKeepsInvariant : Prop :=
  ∀ s t : State, s.Inv → step s = .next t → t.Inv

/-- The reset state of every legal instance, and of the default one, meets the invariant. -/
def Obligations.ResetMeetsInvariant : Prop :=
  (∀ p : Params, p.Legal → (State.resetOf p).Inv) ∧ State.reset.Inv

/-! ### Widths -/

/-- R10: with ADC_W = 10 and WINDOW_N = 4, SUM_W is 12 and a sound window's sum is at most 4092. -/
def Obligations.DefaultSumWidth : Prop :=
  ∀ p : Params, p.adcW = 10 → p.windowN = 4 →
    sumWidth p = 12 ∧ ∀ v : Window, Window.Ok p v → v.sum ≤ 4092 ∧ v.sum < 2 ^ sumWidth p

/-- R11: `clog2(n)` is the smallest `k` with `n ≤ 2^k`. -/
def Obligations.Clog2IsSmallest : Prop :=
  ∀ n : Nat, 1 ≤ n → n ≤ 2 ^ clog2 n ∧ ∀ k, n ≤ 2 ^ k → clog2 n ≤ k

/-! ### SAMPLE -/

/-- R76, R77: SAMPLE completes; it overwrites the slot at the cursor, updates the sum exactly, advances
the cursor and answers the updated sum divided by WINDOW_N; every other element keeps its value. -/
def Obligations.SampleUpdatesWindowAndAnswersAverage : Prop :=
  ∀ (s : State) (w : Nat) (raw : Word), s.Inv → w < s.cfg.numWin → raw.toNat < 2 ^ s.cfg.adcW →
    ∃ v evicted, s.wins[w]? = some v ∧ v.slots[v.cur]? = some evicted ∧
      evicted.toNat ≤ v.sum + raw.toNat ∧
      (v.sum + raw.toNat - evicted.toNat) / s.cfg.windowN < 2 ^ 16 ∧
      exec (.sample w raw) s =
        .next { s with
          wins := s.wins.set w
            { slots := v.slots.set v.cur raw
              sum := v.sum + raw.toNat - evicted.toNat
              cur := (v.cur + 1) % s.cfg.windowN }
          rspData := BitVec.ofNat 16 ((v.sum + raw.toNat - evicted.toNat) / s.cfg.windowN)
          rspErr := false, rspValid := true }

/-- R79: the updated sum is the total of the new slots and fits the register, and adding and subtracting
modulo 2^SUM_W in either order gives the same sum. -/
def Obligations.SampleSumNeverWraps : Prop :=
  ∀ (s t : State) (w : Nat) (raw : Word) (v v' : Window) (evicted : Word),
    s.Inv → raw.toNat < 2 ^ s.cfg.adcW → w < s.cfg.numWin →
    s.wins[w]? = some v → v.slots[v.cur]? = some evicted →
    exec (.sample w raw) s = .next t → t.wins[w]? = some v' →
    v'.sum = v'.total ∧ v'.sum ≤ s.cfg.windowN * (2 ^ s.cfg.adcW - 1) ∧
      v'.sum < 2 ^ sumWidth s.cfg ∧
      v'.sum = ((v.sum + raw.toNat) % 2 ^ sumWidth s.cfg + (2 ^ sumWidth s.cfg - evicted.toNat)) %
        2 ^ sumWidth s.cfg ∧
      v'.sum = ((v.sum + (2 ^ sumWidth s.cfg - evicted.toNat)) % 2 ^ sumWidth s.cfg + raw.toNat) %
        2 ^ sumWidth s.cfg

/-- R80: SAMPLE raises no error, and a word with a window number of NUM_WIN or more is an invalid command.
That `exec` of a SAMPLE term with such a number, those no word encodes included, acts as an invalid
command is the model's choice (log 7). -/
def Obligations.SampleErrsOnlyOutOfRange : Prop :=
  ∀ (s : State) (w : Nat) (raw : Word),
    (w < s.cfg.numWin → ∃ t, exec (.sample w raw) s = .next t ∧ t.rspErr = false) ∧
    (s.cfg.numWin ≤ w → exec (.sample w raw) s =
      .next { s with rspData := 0, rspErr := true, rspValid := true }) ∧
    (∀ c : Cmd, opField c = 1 → s.cfg.numWin ≤ (selField c).toNat →
      decode s.cfg c = .rejected .windowOutOfRange)

/-- R81: what SAMPLE leaves alone. -/
def Obligations.SampleLeavesTheRestAlone : Prop :=
  ∀ (s t : State) (w : Nat) (raw : Word), exec (.sample w raw) s = .next t →
    (∀ w', w' ≠ w → t.wins[w']? = s.wins[w']?) ∧ t.wins.length = s.wins.length ∧
      t.lastLevel = s.lastLevel ∧ t.pwmCmp = s.pwmCmp ∧ t.pwmEn = s.pwmEn ∧
      t.timer = s.timer ∧ t.cfg = s.cfg ∧ t.inputs = s.inputs

/-- R24, R84: a SAMPLE keeps a window's invariant, the reset state meets it, and so does every state a run
from reset reaches. -/
def Obligations.SampleKeepsWindowSound : Prop :=
  (∀ (s t : State) (w : Nat) (raw : Word) (v v' : Window), s.cfg.Legal →
    s.wins[w]? = some v → Window.Ok s.cfg v → exec (.sample w raw) s = .next t →
    t.wins[w]? = some v' → v'.sum = v'.total ∧ v'.cur < s.cfg.windowN ∧ Window.Ok s.cfg v') ∧
  (∀ p : Params, p.Legal → ∀ v ∈ (State.resetOf p).wins, v.sum = v.total ∧ v.cur < p.windowN) ∧
  (∀ (p : Params) (n : Nat) (es : List PortInput) (t : State), p.Legal →
    Reaches n { State.resetOf p with inputs := es } t →
    t.wins.length = p.numWin ∧ ∀ v ∈ t.wins, v.sum = v.total ∧ v.cur < p.windowN)

/-- R86: the average has ADC_W bits. -/
def Obligations.SampleResultFitsTheReading : Prop :=
  ∀ (s : State) (w : Nat) (raw : Word), s.Inv → w < s.cfg.numWin → raw.toNat < 2 ^ s.cfg.adcW →
    ∃ t, exec (.sample w raw) s = .next t ∧ t.rspData.toNat ≤ 2 ^ s.cfg.adcW - 1 ∧
      ∀ k, s.cfg.adcW ≤ k → t.rspData.getLsbD k = false

/-- R78: over any stream of inputs the cursor moves one slot per reading of its window, in order. -/
def Obligations.CursorVisitsSlotsInOrder : Prop :=
  ∀ (s : State) (w : Nat) (es rest : List PortInput), s.Inv → w < s.cfg.numWin →
    (∀ e ∈ es, e.rst = false) →
    ∃ t, Reaches es.length { s with inputs := es ++ rest } t ∧
      (t.window w).cur = ((s.window w).cur + (readings s.cfg w es).length) % s.cfg.windowN

/-- R82: after reset, under any stream of inputs that ends in a reading `r` of window `w`, the result is
the total of the last WINDOW_N readings of that window (of all of them during warm-up) divided by
WINDOW_N. -/
def Obligations.SampleAveragesTheLastReadings : Prop :=
  ∀ (p : Params) (w r : Nat) (es rest : List PortInput) (e : PortInput), p.Legal →
    (∀ x ∈ es, x.rst = false) → e.reading? p w = some r →
    ∃ t, Reaches (es.length + 1) { State.resetOf p with inputs := es ++ e :: rest } t ∧
      t.rspValid = true ∧ t.rspErr = false ∧
      t.rspData.toNat = (lastReadings p.windowN (readings p w es ++ [r])).sum / p.windowN

/-- R85: from any sound state, once WINDOW_N readings have come, a result depends on the last WINDOW_N
readings alone, whatever the window held before. -/
def Obligations.OldReadingsAreForgotten : Prop :=
  ∀ (s : State) (w r : Nat) (es rest : List PortInput) (e : PortInput), s.Inv →
    (∀ x ∈ es, x.rst = false) → e.reading? s.cfg w = some r →
    s.cfg.windowN ≤ (readings s.cfg w es).length + 1 →
    ∃ t, Reaches (es.length + 1) { s with inputs := es ++ e :: rest } t ∧
      t.rspValid = true ∧ t.rspErr = false ∧
      t.rspData.toNat =
        (lastReadings s.cfg.windowN (readings s.cfg w es ++ [r])).sum / s.cfg.windowN

/-- R83: if the last WINDOW_N readings into a window are all `v`, SAMPLE returns exactly `v`. -/
def Obligations.ConstantReadingsAverageToThemselves : Prop :=
  ∀ (s : State) (w v : Nat) (es rest : List PortInput) (e : PortInput), s.Inv →
    (∀ x ∈ es, x.rst = false) → e.reading? s.cfg w = some v →
    lastReadings s.cfg.windowN (readings s.cfg w es ++ [v]) = List.replicate s.cfg.windowN v →
    ∃ t, Reaches (es.length + 1) { s with inputs := es ++ e :: rest } t ∧ t.rspData.toNat = v

/-- R23: no command reads or writes any part of a window other than the one its SEL names. -/
def Obligations.WindowsAreIndependent : Prop :=
  (∀ (s s' : State) (w : Nat) (raw : Word), s.Inv → s'.Inv → s.cfg = s'.cfg →
    w < s.cfg.numWin → s.window w = s'.window w →
    ∃ t t', exec (.sample w raw) s = .next t ∧ exec (.sample w raw) s' = .next t' ∧
      t.rspData = t'.rspData ∧ t.window w = t'.window w ∧
      ∀ w', w' ≠ w → t.window w' = s.window w' ∧ t'.window w' = s'.window w') ∧
  (∀ (i : Instr) (s t : State) (ws : List Window), (∀ w raw, i ≠ .sample w raw) →
    exec i s = .next t →
    t.wins = s.wins ∧ exec i { s with wins := ws } = .next { t with wins := ws })

/-! ### POLL -/

/-- R91, R92: POLL completes; it triggers on exactly the transition its edge names, latches the level
whatever it answers, and writes nothing else. -/
def Obligations.PollReportsTheEdgeAndLatches : Prop :=
  ∀ (s : State) (edge : Edge) (level : Level),
    exec (.poll edge level) s =
      .next { s with
        lastLevel := level
        rspData := if (edge = .rising ∧ s.lastLevel = .low ∧ level = .high) ∨
            (edge = .falling ∧ s.lastLevel = .high ∧ level = .low) then 1 else 0
        rspErr := false, rspValid := true }

/-- R96: two identical POLLs in a row leave the same latch, and the second returns 0. -/
def Obligations.RepeatedPollReturnsZero : Prop :=
  ∀ (s : State) (edge : Edge) (level : Level),
    ∃ t u, exec (.poll edge level) s = .next t ∧ exec (.poll edge level) t = .next u ∧
      t.lastLevel = level ∧ u.lastLevel = level ∧ u.rspData = 0 ∧
      (t.rspData = 1 → u.rspData ≠ t.rspData)

/-- R93: only POLL writes `last_level`, apart from reset. -/
def Obligations.OnlyPollWritesTheLatch : Prop :=
  ∀ s t : State, step s = .next t → t.lastLevel ≠ s.lastLevel →
    s.nextInput.rst = true ∨
      (s.nextInput.cmdValid = true ∧
        ∃ edge level, decode s.cfg s.nextInput.cmd = .instr (.poll edge level) ∧
          t.lastLevel = level)

/-- R95: the first POLL after reset compares against LOW. -/
def Obligations.FirstPollComparesWithLow : Prop :=
  ∀ p : Params,
    (∃ t, exec (.poll .rising .high) (State.resetOf p) = .next t ∧ t.rspData = 1) ∧
    (∃ t, exec (.poll .falling .low) (State.resetOf p) = .next t ∧ t.rspData = 0)

/-- R97: a transition is reported only by the first POLL that sees the new level: whatever commands come
between, every later POLL at that level returns 0. A POLL for the other edge kind consumes the
transition, and a line that returned to its level between two POLLs is not reported. -/
def Obligations.EachTransitionIsReportedOnce : Prop :=
  (∀ (is : List Instr) (s : State) (first last : Edge) (level : Level),
    (∀ edge l, Instr.poll edge l ∈ is → l = level) →
    ∃ t, execAll (.poll first level :: is ++ [.poll last level]) s = .next t ∧ t.rspData = 0) ∧
  (∀ s : State, s.lastLevel = .low →
    ∃ t u, exec (.poll .falling .high) s = .next t ∧ t.rspData = 0 ∧ t.lastLevel = .high ∧
      exec (.poll .rising .high) t = .next u ∧ u.rspData = 0) ∧
  (∀ (s : State) (e f : Edge),
    ∃ t u, exec (.poll e .low) s = .next t ∧ exec (.poll f .low) t = .next u ∧ u.rspData = 0)

/-! ### MAP -/

/-- R104: MAP completes; an index at or beyond the table's length reads the last entry, any other its own
entry; only the response registers change. -/
def Obligations.MapReadsTheSaturatedEntry : Prop :=
  ∀ (s : State) (t : TableId) (index : Word), s.cfg.Legal →
    ∃ v, (tableRom s.cfg t)[if (tableRom s.cfg t).length ≤ index.toNat
        then (tableRom s.cfg t).length - 1 else index.toNat]? = some v ∧
      exec (.map t index) s = .next { s with rspData := v, rspErr := false, rspValid := true }

/-- R105: MAP writes only the response registers, and returns the same value whatever came before. -/
def Obligations.MapIsPure : Prop :=
  ∀ (n : Nat) (s t : State) (table : TableId) (index : Word), Reaches n s t →
    ∃ v, exec (.map table index) s = .next { s with rspData := v, rspErr := false, rspValid := true } ∧
      exec (.map table index) t = .next { t with rspData := v, rspErr := false, rspValid := true }

/-- R107: SEMITONE results are non-decreasing in the index, saturated indices included. -/
def Obligations.SemitoneIsMonotone : Prop :=
  ∀ (s : State) (i j : Word), s.cfg.Legal → i.toNat ≤ j.toNat →
    ∃ t u, exec (.map .semitone i) s = .next t ∧ exec (.map .semitone j) s = .next u ∧
      t.rspData.toNat ≤ u.rspData.toNat

/-! ### The PWM commands and NOP -/

/-- R109: PWM_ENABLE sets `pwm_en` and nothing else of the component state; its words are those with
OP 4 and SEL 0. -/
def Obligations.PwmEnableSetsTheEnableBit : Prop :=
  ∀ s : State,
    exec .pwmEnable s = .next { s with pwmEn := true, rspValid := false } ∧
    ∀ w : Cmd, opField w = 4 →
      (selField w = 0 → decode s.cfg w = .instr .pwmEnable) ∧
      (selField w ≠ 0 → decode s.cfg w = .rejected .selNotZero)

/-- R111: PWM_DISABLE clears `pwm_en` and keeps `pwm_cmp`; its words are those with OP 5 and SEL 0. -/
def Obligations.PwmDisableClearsTheEnableBit : Prop :=
  ∀ s : State,
    exec .pwmDisable s = .next { s with pwmEn := false, rspValid := false } ∧
    ∀ w : Cmd, opField w = 5 →
      (selField w = 0 → decode s.cfg w = .instr .pwmDisable) ∧
      (selField w ≠ 0 → decode s.cfg w = .rejected .selNotZero)

/-- R113, R116: PWM_SET writes `DATA[PWM_W-1:0]` to `pwm_cmp`, whether the driver is enabled or not; its
words are those with OP 6 and SEL 0. -/
def Obligations.PwmSetWritesTheCompareRegister : Prop :=
  ∀ s : State,
    (∀ value : Word, exec (.pwmSet value) s =
      .next { s with pwmCmp := lowBits s.cfg.pwmW value, rspValid := false }) ∧
    ∀ w : Cmd, opField w = 6 →
      (selField w = 0 →
        decode s.cfg w = .instr (.pwmSet (lowBits s.cfg.pwmW (dataField w)))) ∧
      (selField w ≠ 0 → decode s.cfg w = .rejected .selNotZero)

/-- R120: what the PWM commands and NOP leave alone. -/
def Obligations.PwmCommandsLeaveTheRestAlone : Prop :=
  ∀ (i : Instr) (s t : State),
    (i = .nop ∨ i = .pwmEnable ∨ i = .pwmDisable ∨ ∃ v, i = .pwmSet v) → exec i s = .next t →
    t.wins = s.wins ∧ t.lastLevel = s.lastLevel ∧ t.rspData = s.rspData ∧ t.rspErr = s.rspErr ∧
      t.rspValid = false ∧ t.timer = s.timer ∧ t.cfg = s.cfg ∧ t.inputs = s.inputs ∧
      (t.pwmCmp ≠ s.pwmCmp → ∃ v, i = .pwmSet v) ∧
      (t.pwmEn ≠ s.pwmEn → i = .pwmEnable ∨ i = .pwmDisable)

/-- R119: two PWM_ENABLEs leave the block as one and a NOP do; likewise PWM_DISABLE, and two PWM_SETs of
the same value. -/
def Obligations.PwmCommandsAreIdempotent : Prop :=
  ∀ (s : State) (i : Instr), (i = .pwmEnable ∨ i = .pwmDisable ∨ ∃ v, i = .pwmSet v) →
    ∃ t, execAll [i, i] s = .next t ∧ execAll [i, .nop] s = .next t ∧
      (i = .pwmEnable → t = { s with pwmEn := true, rspValid := false })

/-- R123: NOP changes no component state and writes no response data; its words are those with OP 0 and
SEL 0. -/
def Obligations.NopOnlyDropsRspValid : Prop :=
  ∀ s : State,
    exec .nop s = .next { s with rspValid := false } ∧
    ∀ w : Cmd, opField w = 0 →
      (selField w = 0 → decode s.cfg w = .instr .nop) ∧
      (selField w ≠ 0 → decode s.cfg w = .rejected .selNotZero)

/-- R114: over any stream of inputs without a reset, `pwm_cmp` holds the value of the most recent
PWM_SET, or what it held before if there is none. -/
def Obligations.LastCompareWriteWins : Prop :=
  ∀ (s : State) (es rest : List PortInput), (∀ e ∈ es, e.rst = false) →
    ∃ t, Reaches es.length { s with inputs := es ++ rest } t ∧
      t.pwmCmp = ((es.filterMap (PortInput.compare? s.cfg)).getLast?).getD s.pwmCmp

/-! ### The response registers -/

/-- R29, R31: `rsp_valid` is 1 after an edge exactly if it accepted a result command; `rsp_err` is then 1
exactly for an invalid one; other commands keep `rsp_data` and `rsp_err`. -/
def Obligations.ResponseRegistersFollowTheCommand : Prop :=
  (∀ p : Params, (State.resetOf p).rspValid = false ∧ (State.resetOf p).rspErr = false) ∧
  ∀ s t : State, s.nextInput.rst = false → step s = .next t →
    (t.rspValid = true ↔ s.nextInput.isResult s.cfg) ∧
    (s.nextInput.isResult s.cfg →
      (t.rspErr = true ↔ ∃ why, decode s.cfg s.nextInput.cmd = .rejected why)) ∧
    (¬s.nextInput.isResult s.cfg → t.rspData = s.rspData ∧ t.rspErr = s.rspErr)

/-- R163: a result stays on `rsp_data` and `rsp_err` until the next result command's edge, and
`rsp_valid` is 1 only in the cycle that directly follows the accepting edge. -/
def Obligations.ResultIsHeldUntilTheNextResult : Prop :=
  ∀ (s : State) (e : PortInput) (es rest : List PortInput), e.isResult s.cfg →
    (∀ x ∈ es, x.rst = false ∧ ¬x.isResult s.cfg) →
    ∃ t u, Reaches 1 { s with inputs := e :: es ++ rest } t ∧
      Reaches (1 + es.length) { s with inputs := e :: es ++ rest } u ∧
      t.rspValid = true ∧ u.rspData = t.rspData ∧ u.rspErr = t.rspErr ∧
      (es ≠ [] → u.rspValid = false)

/-! ### The environment timer -/

/-- R134: the timer's step, from the pre-edge state. -/
def Obligations.TimerStepsFromThePreEdgeState : Prop :=
  ∀ s : State, s.Inv →
    ∃ t, step s = .next t ∧
      (s.nextInput.rst = true → t.timer = { cnt := 0, active := 0, irq := false }) ∧
      (s.nextInput.rst = false → s.pwmEn = false →
        t.timer = { cnt := 0, active := s.pwmCmp, irq := false }) ∧
      (s.nextInput.rst = false → s.pwmEn = true → s.timer.cnt = s.cfg.pwmTop →
        t.timer = { cnt := 0, active := s.pwmCmp, irq := true }) ∧
      (s.nextInput.rst = false → s.pwmEn = true → s.timer.cnt ≠ s.cfg.pwmTop →
        t.timer = { cnt := s.timer.cnt + 1, active := s.timer.active, irq := false })

/-- The pin of R136, and how many cycles of a period it is high. The model fixes the polarity, high while
the count is below the compare value: R136 marks it as general knowledge that is not in the source, and G1
says an inverted output is equally consistent with the source (log 8). -/
def Obligations.PinIsHighBelowTheCompareValue : Prop :=
  ∀ s : State,
    (s.pwmEn = false → s.pwmPin = s.cfg.pwmIdleLevel) ∧
    (s.pwmEn = true →
      (s.pwmPin = .high ↔ s.timer.cnt < s.timer.active.toNat) ∧
      ((List.range (s.cfg.pwmTop + 1)).filter fun c =>
        { s with timer := { s.timer with cnt := c } }.pwmPin = .high).length =
          min s.timer.active.toNat (s.cfg.pwmTop + 1) ∧
      (s.timer.active = 0 → s.pwmPin = .low) ∧
      (s.Inv → s.cfg.pwmTop < s.timer.active.toNat → s.pwmPin = .high))

/-- R112: while `pwm_en` is 0 the timer is stopped, no interrupt follows, and the pin is idle. -/
def Obligations.DisabledTimerIsStopped : Prop :=
  ∀ s : State, s.pwmEn = false →
    s.pwmPin = s.cfg.pwmIdleLevel ∧
    ∃ t, step s = .next t ∧ t.timer.cnt = 0 ∧ t.timer.irq = false

/-- R135: the interrupt pulse follows exactly an edge that ends a period of an enabled timer. -/
def Obligations.InterruptMarksEachPeriodStart : Prop :=
  ∀ s t : State, step s = .next t →
    (t.timer.irq = true ↔
      s.nextInput.rst = false ∧ s.pwmEn = true ∧ s.timer.cnt = s.cfg.pwmTop)

/-- R138: the first period after enabling runs PWM_TOP + 1 edges on the compare value of the enabling
edge, without a pulse; at its end the second starts with one; and every later period lasts PWM_TOP + 1
edges. -/
def Obligations.PeriodsAfterEnabling : Prop :=
  (∀ (s : State) (e : PortInput) (es rest : List PortInput), s.Inv → s.pwmEn = false →
    e.instr? s.cfg = some .pwmEnable → es.length = s.cfg.pwmTop + 1 →
    (∀ x ∈ es, x.keepsEnabled s.cfg) →
    (∀ k, k ≤ s.cfg.pwmTop →
      ∃ t, Reaches (1 + k) { s with inputs := e :: es ++ rest } t ∧ t.pwmEn = true ∧
        t.timer = { cnt := k, active := s.pwmCmp, irq := false }) ∧
    ∃ u t, Reaches (1 + s.cfg.pwmTop) { s with inputs := e :: es ++ rest } u ∧
      Reaches (2 + s.cfg.pwmTop) { s with inputs := e :: es ++ rest } t ∧ t.pwmEn = true ∧
      t.timer = { cnt := 0, active := u.pwmCmp, irq := true }) ∧
  (∀ (s : State) (es rest : List PortInput), s.Inv → s.pwmEn = true → s.timer.cnt = 0 →
    es.length = s.cfg.pwmTop + 1 → (∀ x ∈ es, x.keepsEnabled s.cfg) →
    (∀ k, 1 ≤ k → k ≤ s.cfg.pwmTop →
      ∃ t, Reaches k { s with inputs := es ++ rest } t ∧ t.pwmEn = true ∧
        t.timer = { cnt := k, active := s.timer.active, irq := false }) ∧
    ∃ u t, Reaches s.cfg.pwmTop { s with inputs := es ++ rest } u ∧
      Reaches (s.cfg.pwmTop + 1) { s with inputs := es ++ rest } t ∧ t.pwmEn = true ∧
      t.timer = { cnt := 0, active := u.pwmCmp, irq := true })

/-- R164: a PWM_SET accepted while enabled reaches the timer at the first period boundary after it,
between 1 and PWM_TOP + 1 edges later; one accepted while disabled is the value of the first period after
the next PWM_ENABLE. -/
def Obligations.CompareValueReachesTheNextPeriod : Prop :=
  (∀ (s : State) (e : PortInput) (es rest : List PortInput) (v : Word) (d : Nat), s.Inv →
    s.pwmEn = true → e.instr? s.cfg = some (.pwmSet v) →
    d = (if s.timer.cnt = s.cfg.pwmTop then s.cfg.pwmTop + 1 else s.cfg.pwmTop - s.timer.cnt) →
    es.length = d → (∀ x ∈ es, x.keepsEnabled s.cfg) →
    (∀ x ∈ es.dropLast, x.compare? s.cfg = none) →
    1 ≤ d ∧ d ≤ s.cfg.pwmTop + 1 ∧
    (∀ k, k < d → ∃ t, Reaches (1 + k) { s with inputs := e :: es ++ rest } t ∧
      t.timer.active = if s.timer.cnt = s.cfg.pwmTop then s.pwmCmp else s.timer.active) ∧
    ∃ t, Reaches (1 + d) { s with inputs := e :: es ++ rest } t ∧ t.pwmEn = true ∧
      t.timer = { cnt := 0, active := v, irq := true }) ∧
  (∀ (s : State) (e f : PortInput) (es rest : List PortInput) (v : Word), s.Inv →
    s.pwmEn = false → e.instr? s.cfg = some (.pwmSet v) →
    (∀ x ∈ es, x.rst = false ∧ x.instr? s.cfg ≠ some .pwmEnable ∧ x.compare? s.cfg = none) →
    f.instr? s.cfg = some .pwmEnable →
    ∃ t, Reaches (es.length + 2) { s with inputs := e :: es ++ f :: rest } t ∧ t.pwmEn = true ∧
      t.timer = { cnt := 0, active := v, irq := false })

/-- R115: if no PWM_SET arrives before a period starts, the period repeats the previous width. -/
def Obligations.ZeroOrderHold : Prop :=
  ∀ (s : State) (es rest : List PortInput), s.Inv → s.pwmEn = true →
    s.timer.active = s.pwmCmp → s.timer.cnt = 0 → es.length = s.cfg.pwmTop + 1 →
    (∀ x ∈ es, x.keepsEnabled s.cfg ∧ x.compare? s.cfg = none) →
    ∃ t, Reaches es.length { s with inputs := es ++ rest } t ∧
      t.timer = { cnt := 0, active := s.timer.active, irq := true } ∧ t.pwmCmp = s.pwmCmp

/-- R139: a command at a period boundary does not act within that edge: the new period uses the old
compare value, and a PWM_DISABLE does not suppress the pulse. -/
def Obligations.BoundaryUsesPreEdgeValues : Prop :=
  ∀ (s : State) (e : PortInput), s.pwmEn = true → s.timer.cnt = s.cfg.pwmTop →
    (∀ v, e.instr? s.cfg = some (.pwmSet v) →
      ∃ t, step (s.present e) = .next t ∧ t.pwmCmp = v ∧ t.timer.active = s.pwmCmp ∧
        t.timer.irq = true) ∧
    (e.instr? s.cfg = some .pwmDisable →
      ∃ t, step (s.present e) = .next t ∧ t.pwmEn = false ∧ t.timer.irq = true)

/-- R110: a PWM_ENABLE accepted while enabled does not restart the period: it acts as a NOP does. -/
def Obligations.EnableWhileEnabledActsAsNop : Prop :=
  ∀ s : State, s.pwmEn = true →
    step (s.present (.command (encode .pwmEnable))) = step (s.present (.command (encode .nop)))

/-- 60_exceptions.md: no rule of the block depends on the timer: replacing the timer changes nothing else
of the next state. -/
def Obligations.BlockIgnoresTheTimer : Prop :=
  ∀ (s t : State) (u : Timer), step s = .next t →
    ∃ u', step { s with timer := u } = .next { t with timer := u' }

/-! ### The assembler -/

/-- R70: a decimal literal and a hexadecimal one with the prefix spell the same unsigned value. -/
def Obligations.LiteralsSpellTheirValue : Prop :=
  ∀ v : Nat, parseLiteral (Nat.toDigits 10 v) = some v ∧
    parseLiteral ('0' :: 'x' :: Nat.toDigits 16 v) = some v

/-- R69: a line whose numbers fit their fields assembles to the word with those numbers, whole, in SEL and
DATA and every other bit below OP 0; a line with a number that does not fit is refused, not cut. Lines
are spelled with the blanks R69 prints (log 15). -/
def Obligations.AssemblerWritesEachFieldOrRefuses : Prop :=
  ∀ (p : Params) (a b comment line : List Char) (x y : Nat), p.Legal →
    parseLiteral a = some x → parseLiteral b = some y →
    (comment = [] ∨ ∃ text, comment = ';' :: text) →
    (line = "SAMPLE ".toList ++ a ++ ", ".toList ++ b ++ comment →
      (x < p.numWin ∧ y < 2 ^ p.adcW →
        assembleLine p line = some (BitVec.ofNat 32 (1 * 2 ^ 28 + x * 2 ^ 24 + y))) ∧
      (p.numWin ≤ x ∨ 2 ^ p.adcW ≤ y → parseLine p line = .refused)) ∧
    (∀ e ∈ [("RISING", 0), ("FALLING", 1)],
      ∀ l ∈ [("LOW", 0), ("0", 0), ("HIGH", 1), ("1", 1)],
        line = "POLL ".toList ++ e.1.toList ++ ", ".toList ++ l.1.toList ++ comment →
        assembleLine p line = some (BitVec.ofNat 32 (2 * 2 ^ 28 + e.2 * 2 ^ 24 + l.2))) ∧
    (∀ t ∈ [("FREQ", 0), ("EXP", 1), ("LOG", 2), ("SEMITONE", 3), ("MAJOR", 4)],
      line = "MAP ".toList ++ t.1.toList ++ ", ".toList ++ b ++ comment →
      (y < 2 ^ 16 →
        assembleLine p line = some (BitVec.ofNat 32 (3 * 2 ^ 28 + t.2 * 2 ^ 24 + y))) ∧
      (2 ^ 16 ≤ y → parseLine p line = .refused)) ∧
    (∀ m ∈ [("NOP", 0), ("PWM_ENABLE", 4), ("PWM_DISABLE", 5)],
      line = m.1.toList ++ comment →
      assembleLine p line = some (BitVec.ofNat 32 (m.2 * 2 ^ 28))) ∧
    (line = "PWM_SET ".toList ++ b ++ comment →
      (y < 2 ^ p.pwmW → assembleLine p line = some (BitVec.ofNat 32 (6 * 2 ^ 28 + y))) ∧
      (2 ^ p.pwmW ≤ y → parseLine p line = .refused))
end

