-- ==== Sys2Proof/Laws/Assembler.lean ====
section
/-! SUPPORT. The assembler: what an operand's text can be, what each operand parser accepts, and how a
line of plain tokens splits into its mnemonic and operands. -/

namespace Sys2Proof.Machine

/-! ### Plain text: no blank, no comma, no start of a comment -/

/-- Text in which no character separates anything. -/
abbrev PlainText (l : List Char) : Prop := ∀ c ∈ l, isBlank c = false ∧ c ≠ ',' ∧ c ≠ ';'

/-- What may follow a command on its line: nothing, or a comment. -/
abbrev LineEnd (l : List Char) : Prop := l = [] ∨ ∃ c, l = ';' :: c

theorem PlainText.cons {c : Char} {l : List Char} (hc : isBlank c = false ∧ c ≠ ',' ∧ c ≠ ';')
    (hl : PlainText l) : PlainText (c :: l) := by
  simpa [PlainText] using ⟨hc, hl⟩

theorem digitValue_plain {c : Char} {d : Nat} (h : digitValue c = some d) :
    isBlank c = false ∧ c ≠ ',' ∧ c ≠ ';' := by
  have hd : ∀ x ∈ [' ', '\t', ',', ';'], c ≠ x := by
    rintro x hx rfl
    simp only [List.mem_cons, List.not_mem_nil, or_false] at hx
    rcases hx with rfl | rfl | rfl | rfl <;> cases h
  simp_all [isBlank]

theorem parseDigits_plain {base acc v : Nat} {l : List Char} (h : parseDigits base acc l = some v) :
    PlainText l := by
  induction l generalizing acc with
  | nil => simp [PlainText]
  | cons c cs ih =>
    unfold parseDigits at h
    split at h
    · split at h
      · exact .cons (digitValue_plain ‹_›) (ih h)
      · cases h
    · cases h

theorem parseLiteral_ne_nil {l : List Char} {v : Nat} (h : parseLiteral l = some v) : l ≠ [] := by
  rintro rfl; cases h

theorem parseLiteral_plain {l : List Char} {v : Nat} (h : parseLiteral l = some v) :
    PlainText l := by
  unfold parseLiteral at h
  split at h
  · cases h
  · exact .cons (by decide) (.cons (by decide) (parseDigits_plain h))
  · exact parseDigits_plain h

/-! ### Literals -/

theorem parseDigits_append {base acc v : Nat} {l m : List Char}
    (h : parseDigits base acc l = some v) :
    parseDigits base acc (l ++ m) = parseDigits base v m := by
  induction l generalizing acc with
  | nil => cases h; rfl
  | cons c cs ih =>
    unfold parseDigits at h
    rw [List.cons_append, parseDigits]
    split at h
    · split at h
      · simp_all
      · cases h
    · cases h

theorem digitValue_digitChar {d : Nat} (h : d < 16) : digitValue (Nat.digitChar d) = some d := by
  interval_cases d <;> decide

/-- Reading the digits of a number gives the number back. -/
theorem parseDigits_toDigits {base : Nat} (h1 : 1 < base) (h16 : base ≤ 16) (v : Nat) :
    parseDigits base 0 (Nat.toDigits base v) = some v := by
  induction v using Nat.strongRecOn with
  | _ v ih =>
    rcases Nat.lt_or_ge v base with hv | hv
    · simp [Nat.toDigits_of_lt_base hv, parseDigits, digitValue_digitChar (by omega : v < 16), hv]
    · rw [Nat.toDigits_of_base_le h1 hv,
        parseDigits_append (ih _ (Nat.div_lt_self (by omega) h1))]
      have hm : v % base < base := Nat.mod_lt _ (by omega)
      simp [parseDigits, digitValue_digitChar (by omega : v % base < 16), hm, Nat.div_add_mod]

theorem parseLiteral_decimal {l : List Char} {v : Nat} (hn : l ≠ [])
    (h : parseDigits 10 0 l = some v) : parseLiteral l = some v := by
  unfold parseLiteral
  split
  · exact absurd rfl hn
  · exact absurd h (by simp [parseDigits, digitValue])
  · exact h

theorem parseLiteral_hexadecimal {l : List Char} {v : Nat} (hn : l ≠ [])
    (h : parseDigits 16 0 l = some v) : parseLiteral ('0' :: 'x' :: l) = some v := by
  cases l with
  | nil => exact absurd rfl hn
  | cons c cs => exact h

/-! ### The word of fields -/

/-- A packed word with RSV 0 as a number: each field at its place, nothing cut. -/
theorem packCmd_eq_ofNat {op sel : BitVec 4} {data : Word} {n : Nat}
    (h : op.toNat * 2 ^ 28 + sel.toNat * 2 ^ 24 + data.toNat = n) :
    packCmd op sel 0 data = BitVec.ofNat 32 n := by
  subst h
  apply BitVec.eq_of_toNat_eq
  have h1 := op.isLt
  have h2 := sel.isLt
  have h3 := data.isLt
  simp only [packCmd, BitVec.toNat_append, BitVec.toNat_ofNat]
  rw [← Nat.shiftLeft_add_eq_or_of_lt (by simp; try omega),
    ← Nat.shiftLeft_add_eq_or_of_lt (by simp; try omega),
    ← Nat.shiftLeft_add_eq_or_of_lt (by simp; try omega)]
  simp only [Nat.shiftLeft_eq, BitVec.ofNat_eq_ofNat, BitVec.toNat_ofNat]
  omega

/-! ### Operand parsers -/

/-- What `parseField` makes of a literal: its value where it fits, a refusal where it does not. -/
theorem parseField_of_literal {n v : Nat} {l : List Char} (h : parseLiteral l = some v) :
    parseField n l = if v < 2 ^ n then some (BitVec.ofNat 16 v) else none := by
  simp [parseField, h]

/-- What `parseWindow` makes of a literal: its value below NUM_WIN, a refusal elsewhere. -/
theorem parseWindow_of_literal {p : Params} {v : Nat} {l : List Char}
    (h : parseLiteral l = some v) : parseWindow p l = if v < p.numWin then some v else none := by
  simp [parseWindow, h]

/-- An accepted field fits its width. -/
theorem parseField_lt {n : Nat} {l : List Char} {v : Word} (h : parseField n l = some v) :
    v.toNat < 2 ^ n := by
  unfold parseField at h
  split at h
  · split at h <;> cases h
    exact lt_of_le_of_lt (by simpa using Nat.mod_le _ _) ‹_›
  · cases h

/-- An accepted window number is below NUM_WIN. -/
theorem parseWindow_lt {p : Params} {l : List Char} {w : Nat} (h : parseWindow p l = some w) :
    w < p.numWin := by
  unfold parseWindow at h
  split at h
  · split at h <;> cases h; assumption
  · cases h

/-! ### Lines -/

theorem trimBlanks_of_ends {l : List Char} (h1 : ∀ c ∈ l.head?, isBlank c = false)
    (h2 : ∀ c ∈ l.getLast?, isBlank c = false) : trimBlanks l = l := by
  have drop : ∀ m : List Char, (∀ c ∈ m.head?, isBlank c = false) → m.dropWhile isBlank = m := by
    rintro (_ | ⟨c, cs⟩) h
    · rfl
    · exact List.dropWhile_cons_of_neg (by simpa using h c rfl)
  rw [trimBlanks, drop l h1, drop _ (by simpa using h2), List.reverse_reverse]

theorem trimBlanks_of_plain {l : List Char} (h : PlainText l) : trimBlanks l = l :=
  trimBlanks_of_ends (fun c hc => (h c (List.mem_of_mem_head? hc)).1)
    (fun c hc => (h c (List.mem_of_getLast? hc)).1)

theorem trimBlanks_space_cons (l : List Char) : trimBlanks (' ' :: l) = trimBlanks l := by
  simp [trimBlanks, isBlank]

theorem stripComment_append {l e : List Char} (hl : ∀ c ∈ l, c ≠ ';') (he : LineEnd e) :
    stripComment (l ++ e) = l := by
  rw [stripComment, List.takeWhile_append_of_pos (by simpa using hl)]
  rcases he with rfl | ⟨c, rfl⟩ <;> simp

/-- A mnemonic alone on its line. -/
theorem parseLine_of_mnemonic {p : Params} {m e : List Char} (hm : PlainText m) (hn : m ≠ [])
    (he : LineEnd e) :
    parseLine p (m ++ e) = asmLineOf (parseCommand p m []) := by
  have ht : m.takeWhile (!isBlank ·) = m :=
    List.takeWhile_eq_self_iff.2 fun c hc => by simp [(hm c hc).1]
  have hd : m.dropWhile (!isBlank ·) = [] :=
    List.dropWhile_eq_nil_iff.2 fun c hc => by simp [(hm c hc).1]
  simp only [parseLine, stripComment_append (fun c hc => (hm c hc).2.2) he, trimBlanks_of_plain hm,
    ht, hd]
  simp [hn, splitOperands, trimBlanks]

/-- A mnemonic, a space, and operand text `ops` with neither a comment nor a blank at its end. -/
theorem parseLine_of_operands {p : Params} {m ops e : List Char} (hm : PlainText m) (hn : m ≠ [])
    (hops : ∀ c ∈ ops, c ≠ ';') (hne : ops ≠ [])
    (hend : ∀ c ∈ ops.getLast?, isBlank c = false) (he : LineEnd e) :
    parseLine p (m ++ ' ' :: ops ++ e) =
      asmLineOf (parseCommand p m (splitOperands (' ' :: ops))) := by
  have hs : stripComment (m ++ ' ' :: ops ++ e) = m ++ ' ' :: ops := by
    refine stripComment_append (fun c hc => ?_) he
    rcases List.mem_append.1 hc with h | h
    · exact (hm c h).2.2
    · rcases List.mem_cons.1 h with rfl | h
      · decide
      · exact hops c h
  have htr : trimBlanks (m ++ ' ' :: ops) = m ++ ' ' :: ops := by
    refine trimBlanks_of_ends (fun c hc => ?_) (fun c hc => ?_)
    · rw [List.head?_append_of_ne_nil _ hn] at hc
      exact (hm c (List.mem_of_mem_head? hc)).1
    · rw [List.getLast?_append_of_ne_nil _ (by simp), List.getLast?_cons_of_ne_nil hne] at hc
      exact hend c hc
  have ht : (m ++ ' ' :: ops).takeWhile (!isBlank ·) = m := by
    rw [List.takeWhile_append_of_pos fun c hc => by simp [(hm c hc).1]]
    simp [isBlank]
  have hd : (m ++ ' ' :: ops).dropWhile (!isBlank ·) = ' ' :: ops := by
    rw [List.dropWhile_append_of_pos fun c hc => by simp [(hm c hc).1]]
    simp [isBlank]
  simp only [parseLine, hs, htr, ht, hd]
  simp

theorem splitOperands_one {a : List Char} (ha : PlainText a) (hn : a ≠ []) :
    splitOperands (' ' :: a) = [a] := by
  have hs : (' ' :: a).splitOn ',' = [' ' :: a] :=
    List.splitOnP_eq_singleton (by simpa using fun c hc => (ha c hc).2.1)
  simp [splitOperands, hs, trimBlanks_space_cons, trimBlanks_of_plain ha, hn]

/-- The text of two operands, `a` and `b`, as R69 prints it. -/
abbrev twoOperands (a b : List Char) : List Char := a ++ ',' :: ' ' :: b

theorem twoOperands_getLast? {a b : List Char} (hb : PlainText b) (hn : b ≠ []) :
    ∀ c ∈ (twoOperands a b).getLast?, isBlank c = false := by
  intro c hc
  rw [List.getLast?_append_of_ne_nil _ (by simp), List.getLast?_cons_of_ne_nil (by simp),
    List.getLast?_cons_of_ne_nil hn] at hc
  exact (hb c (List.mem_of_getLast? hc)).1

theorem splitOperands_two {a b : List Char} (ha : PlainText a) (hb : PlainText b) (hna : a ≠ [])
    (hnb : b ≠ []) : splitOperands (' ' :: twoOperands a b) = [a, b] := by
  have hs : (' ' :: twoOperands a b).splitOn ',' = [' ' :: a, ' ' :: b] := by
    have h1 := List.splitOnP_append_cons_of_forall_mem (p := (· == ',')) (xs := ' ' :: a)
      (by simpa using fun c hc => (ha c hc).2.1) ',' (by simp) (' ' :: b)
    have h2 : (' ' :: b).splitOnP (· == ',') = [' ' :: b] :=
      List.splitOnP_eq_singleton (by simpa using fun c hc => (hb c hc).2.1)
    simpa [List.splitOn, h2] using h1
  have ht : trimBlanks (twoOperands a b) = twoOperands a b := by
    refine trimBlanks_of_ends (fun c hc => ?_) (twoOperands_getLast? hb hnb)
    rw [List.head?_append_of_ne_nil _ hna] at hc
    exact (ha c (List.mem_of_mem_head? hc)).1
  simp [splitOperands, hs, trimBlanks_space_cons, trimBlanks_of_plain ha, trimBlanks_of_plain hb,
    ht]

/-- A mnemonic and one operand. -/
theorem parseLine_of_one {p : Params} {m a e : List Char} (hm : PlainText m) (hn : m ≠ [])
    (ha : PlainText a) (hna : a ≠ []) (he : LineEnd e) :
    parseLine p (m ++ ' ' :: a ++ e) = asmLineOf (parseCommand p m [a]) := by
  rw [parseLine_of_operands hm hn (fun c hc => (ha c hc).2.2) hna
    (fun c hc => (ha c (List.mem_of_getLast? hc)).1) he, splitOperands_one ha hna]

/-- A mnemonic and two operands. -/
theorem parseLine_of_two {p : Params} {m a b e : List Char} (hm : PlainText m) (hn : m ≠ [])
    (ha : PlainText a) (hna : a ≠ []) (hb : PlainText b) (hnb : b ≠ []) (he : LineEnd e) :
    parseLine p (m ++ ' ' :: twoOperands a b ++ e) = asmLineOf (parseCommand p m [a, b]) := by
  have hc : ∀ c ∈ twoOperands a b, c ≠ ';' := by
    intro c hc
    rcases List.mem_append.1 hc with h | h
    · exact (ha c h).2.2
    · simp only [List.mem_cons] at h
      rcases h with rfl | rfl | h
      · decide
      · decide
      · exact (hb c h).2.2
  rw [parseLine_of_operands hm hn hc (by simp) (twoOperands_getLast? hb hnb) he,
    splitOperands_two ha hb hna hnb]

end Sys2Proof.Machine
end

