-- ==== Sys2Proof/Laws/Bits.lean ====
section
/-! SUPPORT. The bit-field helpers and the widths: what each gives, once. -/

namespace Sys2Proof

@[simp] theorem lowBits_toNat (n : Nat) (v : Word) : (lowBits n v).toNat = v.toNat % 2 ^ n := by
  simp only [lowBits, BitVec.toNat_ofNat]
  exact Nat.mod_eq_of_lt (lt_of_le_of_lt (Nat.mod_le _ _) v.isLt)

theorem lowBits_lt (n : Nat) (v : Word) : (lowBits n v).toNat < 2 ^ n := by
  simpa using Nat.mod_lt _ (Nat.two_pow_pos n)

theorem lowBits_eq_self {n : Nat} {v : Word} (h : v.toNat < 2 ^ n) : lowBits n v = v := by
  apply BitVec.eq_of_toNat_eq
  simpa using Nat.mod_eq_of_lt h

@[simp] theorem lowBits_lowBits (n : Nat) (v : Word) : lowBits n (lowBits n v) = lowBits n v :=
  lowBits_eq_self (lowBits_lt n v)

theorem narrow_eq_self {n x : Nat} (h : x < 2 ^ n) : narrow n x = x := Nat.mod_eq_of_lt h

/-! ### The fields of a packed word -/

theorem getLsbD_packCmd (op sel : BitVec 4) (rsv : BitVec 8) (data : Word) (i : Nat) :
    (packCmd op sel rsv data).getLsbD i =
      if i < 16 then data.getLsbD i else if i < 24 then rsv.getLsbD (i - 16)
      else if i < 28 then sel.getLsbD (i - 24) else op.getLsbD (i - 28) := by
  change BitVec.getLsbD (w := 4 + 4 + 8 + 16) (op ++ sel ++ rsv ++ data) i = _
  simp only [BitVec.getLsbD_append, Nat.sub_sub]
  split_ifs <;> first | rfl | omega

@[simp] theorem opField_packCmd (op sel : BitVec 4) (rsv : BitVec 8) (data : Word) :
    opField (packCmd op sel rsv data) = op := by
  apply BitVec.eq_of_getLsbD_eq
  intro i hi
  simp [opField, getLsbD_packCmd, hi, show ¬28 + i < 16 by omega, show ¬28 + i < 24 by omega]

@[simp] theorem selField_packCmd (op sel : BitVec 4) (rsv : BitVec 8) (data : Word) :
    selField (packCmd op sel rsv data) = sel := by
  apply BitVec.eq_of_getLsbD_eq
  intro i hi
  simp [selField, getLsbD_packCmd, hi, show ¬24 + i < 16 by omega, show 24 + i < 28 by omega]

@[simp] theorem rsvField_packCmd (op sel : BitVec 4) (rsv : BitVec 8) (data : Word) :
    rsvField (packCmd op sel rsv data) = rsv := by
  apply BitVec.eq_of_getLsbD_eq
  intro i hi
  simp [rsvField, getLsbD_packCmd, hi, show 16 + i < 24 by omega]

@[simp] theorem dataField_packCmd (op sel : BitVec 4) (rsv : BitVec 8) (data : Word) :
    dataField (packCmd op sel rsv data) = data := by
  apply BitVec.eq_of_getLsbD_eq
  intro i hi
  simp [dataField, getLsbD_packCmd, hi]

/-- A word is its four fields: no bit lies outside them (R54). -/
theorem packCmd_fields (w : Cmd) :
    packCmd (opField w) (selField w) (rsvField w) (dataField w) = w := by
  apply BitVec.eq_of_getLsbD_eq
  intro i hi
  simp only [getLsbD_packCmd, opField, selField, rsvField, dataField, BitVec.getLsbD_extractLsb']
  split_ifs <;> rw [decide_eq_true (by omega), Bool.true_and] <;> congr 1 <;> omega

/-! ### Code maps -/

@[simp] theorem Level.ofBit_bit (l : Level) : Level.ofBit l.bit = l := by cases l <;> rfl

@[simp] theorem Edge.ofBit_bit (e : Edge) : Edge.ofBit e.bit = e := by cases e <;> rfl

@[simp] theorem TableId.ofNumber_number (t : TableId) : TableId.ofNumber t.number = some t := by
  cases t <;> rfl

theorem TableId.number_le (t : TableId) : t.number ≤ 4 := by cases t <;> decide

theorem TableId.number_of_ofNumber {n : Nat} {t : TableId} (h : TableId.ofNumber n = some t) :
    t.number = n := by
  unfold TableId.ofNumber at h
  split at h <;> cases h <;> rfl

theorem TableId.ofNumber_isSome (n : Nat) : (TableId.ofNumber n).isSome = true ↔ n ≤ 4 := by
  constructor
  · intro h
    obtain ⟨t, ht⟩ := Option.isSome_iff_exists.mp h
    exact TableId.number_of_ofNumber ht ▸ t.number_le
  · intro h
    interval_cases n <;> rfl

/-! ### Bytes of a word -/

theorem cmdOfBytes_cmdByte (w : Cmd) :
    cmdOfBytes (cmdByte w 0) (cmdByte w 1) (cmdByte w 2) (cmdByte w 3) = w := by
  apply BitVec.eq_of_getLsbD_eq
  intro i hi
  simp only [cmdOfBytes, cmdByte, BitVec.getLsbD_append, BitVec.getLsbD_extractLsb']
  split
  · simp_all
  · split
    · simp only [show i - 8 < 8 by omega, decide_true, Bool.true_and]; congr 1; omega
    · split
      · simp only [show i - 8 - 8 < 8 by omega, decide_true, Bool.true_and]; congr 1; omega
      · simp only [show i - 8 - 8 - 8 < 8 by omega, decide_true, Bool.true_and]; congr 1; omega

namespace Machine

/-! ### Widths -/

theorem le_two_pow_clog2 (n : Nat) : n ≤ 2 ^ clog2 n := by
  unfold clog2
  split
  · simpa
  · have := Nat.lt_log2_self (n := n - 1)
    omega

/-- The sum's register holds every total of WINDOW_N readings (R79, R86). -/
theorem sum_bound_lt (p : Params) (hN : 1 ≤ p.windowN) :
    p.windowN * (2 ^ p.adcW - 1) < 2 ^ sumWidth p := by
  have h1 : 2 ^ sumWidth p = 2 ^ p.adcW * 2 ^ clog2 p.windowN := by rw [sumWidth, Nat.pow_add]
  have h2 := le_two_pow_clog2 p.windowN
  have h3 : 0 < 2 ^ p.adcW := Nat.two_pow_pos _
  calc p.windowN * (2 ^ p.adcW - 1) < p.windowN * 2 ^ p.adcW :=
        Nat.mul_lt_mul_of_pos_left (by omega) hN
    _ ≤ 2 ^ clog2 p.windowN * 2 ^ p.adcW := Nat.mul_le_mul_right _ h2
    _ = 2 ^ sumWidth p := by rw [h1, Nat.mul_comm]

/-- Where the evicted value is within the sum and the new sum fits the register, the update is exact
(R79). -/
theorem updatedSum_exact {width sum raw evicted : Nat} (he : evicted ≤ sum)
    (hlt : sum + raw - evicted < 2 ^ width) :
    updatedSum width sum raw evicted = sum + raw - evicted := by
  unfold updatedSum
  have h : (sum : Int) + raw - evicted = ((sum + raw - evicted : Nat) : Int) := by omega
  rw [h, ← Int.natCast_mod, Int.toNat_natCast, Nat.mod_eq_of_lt hlt]

theorem updatedSum_lt (width sum raw evicted : Nat) :
    updatedSum width sum raw evicted < 2 ^ width := by
  unfold updatedSum
  have h0 : (0 : Int) < ((2 ^ width : Nat) : Int) := by exact_mod_cast Nat.two_pow_pos width
  have h1 := Int.emod_lt_of_pos ((sum : Int) + raw - evicted) h0
  have h2 := Int.emod_nonneg ((sum : Int) + raw - evicted) h0.ne'
  omega

end Machine

end Sys2Proof
end

