-- ==== Sys2Proof/Laws/Config.lean ====
section
/-! SUPPORT. The default instance is legal, whatever the free values are. -/

namespace Sys2Proof.Config

theorem openTable_length (t : Nat) : (openTable t).length = freeTableLen t % 65536 + 1 := by
  simp [openTable]

theorem openTable_legal (t : Nat) : LegalLength (openTable t) := by
  have := Nat.mod_lt (freeTableLen t) (show 0 < 65536 by decide)
  rw [LegalLength, openTable_length]
  omega

@[simp] theorem runningMax_length (m : Word) (l : List Word) :
    (runningMax m l).length = l.length := by
  induction l generalizing m with
  | nil => rfl
  | cons v vs ih => simp only [runningMax]; split <;> simp [ih]

theorem runningMax_chain (m : Word) (l : List Word) : NonDecreasing (m :: runningMax m l) := by
  induction l generalizing m with
  | nil => simp [NonDecreasing, runningMax]
  | cons v vs ih =>
    simp only [runningMax]
    split
    · exact List.IsChain.cons_cons ‹_› (ih v)
    · exact List.IsChain.cons_cons le_rfl (ih m)

theorem runningMax_nonDecreasing (m : Word) (l : List Word) : NonDecreasing (runningMax m l) :=
  (runningMax_chain m l).tail

/-- A table that already is non-decreasing is its own running maximum: every legal SEMITONE table is
among those of `openTables` (R102, log 2). -/
theorem runningMax_eq_self {m : Word} {l : List Word} (h : NonDecreasing (m :: l)) :
    runningMax m l = l := by
  induction l generalizing m with
  | nil => rfl
  | cons v vs ih =>
    rw [NonDecreasing, List.isChain_cons_cons] at h
    simp [runningMax, h.1, ih h.2]

theorem openTables_legal : openTables.Legal := by
  refine ⟨openTable_legal 0, openTable_legal 1, openTable_legal 2, ?_, openTable_legal 4,
    runningMax_nonDecreasing _ _⟩
  have h := openTable_legal 3
  simpa only [LegalLength, openTables, runningMax_length] using h

theorem default_legal : default.Legal :=
  ⟨by decide, by decide, by decide, by decide,
    Nat.mod_lt freePwmTop (Nat.two_pow_pos 16), openTables_legal⟩

end Sys2Proof.Config
end

