-- ==== Sys2Proof/Laws/Decode.lean ====
section
/-! SUPPORT. What the decoder gives, by opcode, and what an accepted word must be. -/

namespace Sys2Proof

section ByOpcode

variable {p : Params} {w : Cmd}

theorem decode_nop (h : opField w = 0) : decode p w = decodeUnselected (selField w) .nop := by
  simp [decode, h]

theorem decode_sample (h : opField w = 1) :
    decode p w = decodeSample p (selField w) (dataField w) := by
  simp [decode, h]

theorem decode_poll (h : opField w = 2) : decode p w = decodePoll (selField w) (dataField w) := by
  simp [decode, h]

theorem decode_map (h : opField w = 3) : decode p w = decodeMap (selField w) (dataField w) := by
  simp [decode, h]

theorem decode_pwmEnable (h : opField w = 4) :
    decode p w = decodeUnselected (selField w) .pwmEnable := by
  simp [decode, h]

theorem decode_pwmDisable (h : opField w = 5) :
    decode p w = decodeUnselected (selField w) .pwmDisable := by
  simp [decode, h]

theorem decode_pwmSet (h : opField w = 6) :
    decode p w = decodePwmSet p (selField w) (dataField w) := by
  simp [decode, h]

theorem decode_unassigned (h : 7 ≤ (opField w).toNat) :
    decode p w = .rejected .opcodeUnassigned := by
  unfold decode
  split <;> first | rfl | omega

end ByOpcode

/-- SEL[3:1] = 0 says that SEL is 0 or 1. -/
theorem selHigh_eq_zero_iff (sel : BitVec 4) : sel.extractLsb' 1 3 = 0 ↔ sel.toNat ≤ 1 := by
  revert sel; decide

/-- What a word that decodes to an instruction is: its opcode, its selector and the operands read from
its fields. -/
theorem decode_cases {p : Params} {w : Cmd} {i : Instr} (h : decode p w = .instr i) :
    (opField w = 0 ∧ selField w = 0 ∧ i = .nop) ∨
    (opField w = 1 ∧ (selField w).toNat < p.numWin ∧
      i = .sample (selField w).toNat (lowBits p.adcW (dataField w))) ∨
    (opField w = 2 ∧ (selField w).toNat ≤ 1 ∧
      i = .poll (Edge.ofBit ((selField w).getLsbD 0)) (Level.ofBit ((dataField w).getLsbD 0))) ∨
    (opField w = 3 ∧ ∃ t, TableId.ofNumber (selField w).toNat = some t ∧
      i = .map t (dataField w)) ∨
    (opField w = 4 ∧ selField w = 0 ∧ i = .pwmEnable) ∨
    (opField w = 5 ∧ selField w = 0 ∧ i = .pwmDisable) ∨
    (opField w = 6 ∧ selField w = 0 ∧ i = .pwmSet (lowBits p.pwmW (dataField w))) := by
  have hop : ∀ k : Nat, (opField w).toNat = k → opField w = BitVec.ofNat 4 k := fun k hk =>
    BitVec.eq_of_toNat_eq (by have := (opField w).isLt; simp [hk]; omega)
  unfold decode at h
  split at h
  · rename_i hk; unfold decodeUnselected at h; split at h <;> cases h
    exact .inl ⟨hop _ hk, ‹_›, rfl⟩
  · rename_i hk; unfold decodeSample at h; split at h <;> cases h
    exact .inr (.inl ⟨hop _ hk, ‹_›, rfl⟩)
  · rename_i hk; unfold decodePoll at h; split at h <;> cases h
    exact .inr (.inr (.inl ⟨hop _ hk, (selHigh_eq_zero_iff _).mp ‹_›, rfl⟩))
  · rename_i hk; unfold decodeMap at h; split at h <;> cases h
    exact .inr (.inr (.inr (.inl ⟨hop _ hk, _, ‹_›, rfl⟩)))
  · rename_i hk; unfold decodeUnselected at h; split at h <;> cases h
    exact .inr (.inr (.inr (.inr (.inl ⟨hop _ hk, ‹_›, rfl⟩))))
  · rename_i hk; unfold decodeUnselected at h; split at h <;> cases h
    exact .inr (.inr (.inr (.inr (.inr (.inl ⟨hop _ hk, ‹_›, rfl⟩)))))
  · rename_i hk; unfold decodePwmSet decodeUnselected at h; split at h <;> cases h
    exact .inr (.inr (.inr (.inr (.inr (.inr ⟨hop _ hk, ‹_›, rfl⟩)))))
  · cases h

/-- Every operand of a decoded instruction fits its field. -/
theorem decode_wellFormed {p : Params} {w : Cmd} {i : Instr} (h : decode p w = .instr i) :
    i.wellFormed p = true := by
  obtain ⟨-, -, rfl⟩ | ⟨-, hw, rfl⟩ | ⟨-, -, rfl⟩ | ⟨-, t, -, rfl⟩ | ⟨-, -, rfl⟩ | ⟨-, -, rfl⟩ |
    ⟨-, -, rfl⟩ := decode_cases h
  case inr.inl => simp [Instr.wellFormed, hw, Nat.mod_lt _ (Nat.two_pow_pos p.adcW)]
  case inr.inr.inr.inr.inr.inr =>
    simp [Instr.wellFormed, Nat.mod_lt _ (Nat.two_pow_pos p.pwmW)]
  all_goals rfl

end Sys2Proof
end

