-- ==== Sys2Proof/Laws/State.lean ====
section
/-! SUPPORT. One lemma per field per named update of the state, so that no later proof unfolds a record
update. -/

namespace Sys2Proof.Machine

/-! ### State.respond -/

@[simp] theorem State.respond_cfg (s : State) (v : Word) : (s.respond v).cfg = s.cfg := rfl
@[simp] theorem State.respond_wins (s : State) (v : Word) : (s.respond v).wins = s.wins := rfl
@[simp] theorem State.respond_lastLevel (s : State) (v : Word) :
    (s.respond v).lastLevel = s.lastLevel := rfl
@[simp] theorem State.respond_pwmCmp (s : State) (v : Word) : (s.respond v).pwmCmp = s.pwmCmp := rfl
@[simp] theorem State.respond_pwmEn (s : State) (v : Word) : (s.respond v).pwmEn = s.pwmEn := rfl
@[simp] theorem State.respond_rspValid (s : State) (v : Word) : (s.respond v).rspValid = true := rfl
@[simp] theorem State.respond_rspData (s : State) (v : Word) : (s.respond v).rspData = v := rfl
@[simp] theorem State.respond_rspErr (s : State) (v : Word) : (s.respond v).rspErr = false := rfl
@[simp] theorem State.respond_timer (s : State) (v : Word) : (s.respond v).timer = s.timer := rfl
@[simp] theorem State.respond_inputs (s : State) (v : Word) : (s.respond v).inputs = s.inputs := rfl

/-! ### State.noResponse -/

@[simp] theorem State.noResponse_cfg (s : State) : (s.noResponse).cfg = s.cfg := rfl
@[simp] theorem State.noResponse_wins (s : State) : (s.noResponse).wins = s.wins := rfl
@[simp] theorem State.noResponse_lastLevel (s : State) :
    (s.noResponse).lastLevel = s.lastLevel := rfl
@[simp] theorem State.noResponse_pwmCmp (s : State) : (s.noResponse).pwmCmp = s.pwmCmp := rfl
@[simp] theorem State.noResponse_pwmEn (s : State) : (s.noResponse).pwmEn = s.pwmEn := rfl
@[simp] theorem State.noResponse_rspValid (s : State) : (s.noResponse).rspValid = false := rfl
@[simp] theorem State.noResponse_rspData (s : State) : (s.noResponse).rspData = s.rspData := rfl
@[simp] theorem State.noResponse_rspErr (s : State) : (s.noResponse).rspErr = s.rspErr := rfl
@[simp] theorem State.noResponse_timer (s : State) : (s.noResponse).timer = s.timer := rfl
@[simp] theorem State.noResponse_inputs (s : State) : (s.noResponse).inputs = s.inputs := rfl

/-! ### State.invalid -/

@[simp] theorem State.invalid_cfg (s : State) : (s.invalid).cfg = s.cfg := rfl
@[simp] theorem State.invalid_wins (s : State) : (s.invalid).wins = s.wins := rfl
@[simp] theorem State.invalid_lastLevel (s : State) : (s.invalid).lastLevel = s.lastLevel := rfl
@[simp] theorem State.invalid_pwmCmp (s : State) : (s.invalid).pwmCmp = s.pwmCmp := rfl
@[simp] theorem State.invalid_pwmEn (s : State) : (s.invalid).pwmEn = s.pwmEn := rfl
@[simp] theorem State.invalid_rspValid (s : State) : (s.invalid).rspValid = true := rfl
@[simp] theorem State.invalid_rspData (s : State) : (s.invalid).rspData = 0 := rfl
@[simp] theorem State.invalid_rspErr (s : State) : (s.invalid).rspErr = true := rfl
@[simp] theorem State.invalid_timer (s : State) : (s.invalid).timer = s.timer := rfl
@[simp] theorem State.invalid_inputs (s : State) : (s.invalid).inputs = s.inputs := rfl

/-! ### State.setWindow -/

@[simp] theorem State.setWindow_cfg (s : State) (w : Nat) (v : Window) :
    (s.setWindow w v).cfg = s.cfg := rfl
@[simp] theorem State.setWindow_wins (s : State) (w : Nat) (v : Window) :
    (s.setWindow w v).wins = s.wins.set w v := rfl
@[simp] theorem State.setWindow_lastLevel (s : State) (w : Nat) (v : Window) :
    (s.setWindow w v).lastLevel = s.lastLevel := rfl
@[simp] theorem State.setWindow_pwmCmp (s : State) (w : Nat) (v : Window) :
    (s.setWindow w v).pwmCmp = s.pwmCmp := rfl
@[simp] theorem State.setWindow_pwmEn (s : State) (w : Nat) (v : Window) :
    (s.setWindow w v).pwmEn = s.pwmEn := rfl
@[simp] theorem State.setWindow_rspValid (s : State) (w : Nat) (v : Window) :
    (s.setWindow w v).rspValid = s.rspValid := rfl
@[simp] theorem State.setWindow_rspData (s : State) (w : Nat) (v : Window) :
    (s.setWindow w v).rspData = s.rspData := rfl
@[simp] theorem State.setWindow_rspErr (s : State) (w : Nat) (v : Window) :
    (s.setWindow w v).rspErr = s.rspErr := rfl
@[simp] theorem State.setWindow_timer (s : State) (w : Nat) (v : Window) :
    (s.setWindow w v).timer = s.timer := rfl
@[simp] theorem State.setWindow_inputs (s : State) (w : Nat) (v : Window) :
    (s.setWindow w v).inputs = s.inputs := rfl

/-! ### State.latch -/

@[simp] theorem State.latch_cfg (s : State) (l : Level) : (s.latch l).cfg = s.cfg := rfl
@[simp] theorem State.latch_wins (s : State) (l : Level) : (s.latch l).wins = s.wins := rfl
@[simp] theorem State.latch_lastLevel (s : State) (l : Level) : (s.latch l).lastLevel = l := rfl
@[simp] theorem State.latch_pwmCmp (s : State) (l : Level) : (s.latch l).pwmCmp = s.pwmCmp := rfl
@[simp] theorem State.latch_pwmEn (s : State) (l : Level) : (s.latch l).pwmEn = s.pwmEn := rfl
@[simp] theorem State.latch_rspValid (s : State) (l : Level) :
    (s.latch l).rspValid = s.rspValid := rfl
@[simp] theorem State.latch_rspData (s : State) (l : Level) : (s.latch l).rspData = s.rspData := rfl
@[simp] theorem State.latch_rspErr (s : State) (l : Level) : (s.latch l).rspErr = s.rspErr := rfl
@[simp] theorem State.latch_timer (s : State) (l : Level) : (s.latch l).timer = s.timer := rfl
@[simp] theorem State.latch_inputs (s : State) (l : Level) : (s.latch l).inputs = s.inputs := rfl

/-! ### State.setEnable -/

@[simp] theorem State.setEnable_cfg (s : State) (b : Bool) : (s.setEnable b).cfg = s.cfg := rfl
@[simp] theorem State.setEnable_wins (s : State) (b : Bool) : (s.setEnable b).wins = s.wins := rfl
@[simp] theorem State.setEnable_lastLevel (s : State) (b : Bool) :
    (s.setEnable b).lastLevel = s.lastLevel := rfl
@[simp] theorem State.setEnable_pwmCmp (s : State) (b : Bool) :
    (s.setEnable b).pwmCmp = s.pwmCmp := rfl
@[simp] theorem State.setEnable_pwmEn (s : State) (b : Bool) : (s.setEnable b).pwmEn = b := rfl
@[simp] theorem State.setEnable_rspValid (s : State) (b : Bool) :
    (s.setEnable b).rspValid = s.rspValid := rfl
@[simp] theorem State.setEnable_rspData (s : State) (b : Bool) :
    (s.setEnable b).rspData = s.rspData := rfl
@[simp] theorem State.setEnable_rspErr (s : State) (b : Bool) :
    (s.setEnable b).rspErr = s.rspErr := rfl
@[simp] theorem State.setEnable_timer (s : State) (b : Bool) :
    (s.setEnable b).timer = s.timer := rfl
@[simp] theorem State.setEnable_inputs (s : State) (b : Bool) :
    (s.setEnable b).inputs = s.inputs := rfl

/-! ### State.setCompare -/

@[simp] theorem State.setCompare_cfg (s : State) (v : Word) : (s.setCompare v).cfg = s.cfg := rfl
@[simp] theorem State.setCompare_wins (s : State) (v : Word) : (s.setCompare v).wins = s.wins := rfl
@[simp] theorem State.setCompare_lastLevel (s : State) (v : Word) :
    (s.setCompare v).lastLevel = s.lastLevel := rfl
@[simp] theorem State.setCompare_pwmCmp (s : State) (v : Word) : (s.setCompare v).pwmCmp = v := rfl
@[simp] theorem State.setCompare_pwmEn (s : State) (v : Word) :
    (s.setCompare v).pwmEn = s.pwmEn := rfl
@[simp] theorem State.setCompare_rspValid (s : State) (v : Word) :
    (s.setCompare v).rspValid = s.rspValid := rfl
@[simp] theorem State.setCompare_rspData (s : State) (v : Word) :
    (s.setCompare v).rspData = s.rspData := rfl
@[simp] theorem State.setCompare_rspErr (s : State) (v : Word) :
    (s.setCompare v).rspErr = s.rspErr := rfl
@[simp] theorem State.setCompare_timer (s : State) (v : Word) :
    (s.setCompare v).timer = s.timer := rfl
@[simp] theorem State.setCompare_inputs (s : State) (v : Word) :
    (s.setCompare v).inputs = s.inputs := rfl

/-! ### State.accept -/

@[simp] theorem State.accept_cfg (s : State) : (s.accept).cfg = s.cfg := rfl
@[simp] theorem State.accept_wins (s : State) : (s.accept).wins = s.wins := rfl
@[simp] theorem State.accept_lastLevel (s : State) : (s.accept).lastLevel = s.lastLevel := rfl
@[simp] theorem State.accept_pwmCmp (s : State) : (s.accept).pwmCmp = s.pwmCmp := rfl
@[simp] theorem State.accept_pwmEn (s : State) : (s.accept).pwmEn = s.pwmEn := rfl
@[simp] theorem State.accept_rspValid (s : State) : (s.accept).rspValid = s.rspValid := rfl
@[simp] theorem State.accept_rspData (s : State) : (s.accept).rspData = s.rspData := rfl
@[simp] theorem State.accept_rspErr (s : State) : (s.accept).rspErr = s.rspErr := rfl
@[simp] theorem State.accept_timer (s : State) : (s.accept).timer = s.timer := rfl
@[simp] theorem State.accept_inputs (s : State) : (s.accept).inputs = s.inputs.tail := rfl

/-! ### State.present -/

@[simp] theorem State.present_cfg (s : State) (e : PortInput) : (s.present e).cfg = s.cfg := rfl
@[simp] theorem State.present_wins (s : State) (e : PortInput) : (s.present e).wins = s.wins := rfl
@[simp] theorem State.present_lastLevel (s : State) (e : PortInput) :
    (s.present e).lastLevel = s.lastLevel := rfl
@[simp] theorem State.present_pwmCmp (s : State) (e : PortInput) :
    (s.present e).pwmCmp = s.pwmCmp := rfl
@[simp] theorem State.present_pwmEn (s : State) (e : PortInput) :
    (s.present e).pwmEn = s.pwmEn := rfl
@[simp] theorem State.present_rspValid (s : State) (e : PortInput) :
    (s.present e).rspValid = s.rspValid := rfl
@[simp] theorem State.present_rspData (s : State) (e : PortInput) :
    (s.present e).rspData = s.rspData := rfl
@[simp] theorem State.present_rspErr (s : State) (e : PortInput) :
    (s.present e).rspErr = s.rspErr := rfl
@[simp] theorem State.present_timer (s : State) (e : PortInput) :
    (s.present e).timer = s.timer := rfl
@[simp] theorem State.present_inputs (s : State) (e : PortInput) :
    (s.present e).inputs = e :: s.inputs := rfl

/-! ### State.withTimer -/

@[simp] theorem State.withTimer_cfg (s : State) (u : Timer) : (s.withTimer u).cfg = s.cfg := rfl
@[simp] theorem State.withTimer_wins (s : State) (u : Timer) : (s.withTimer u).wins = s.wins := rfl
@[simp] theorem State.withTimer_lastLevel (s : State) (u : Timer) :
    (s.withTimer u).lastLevel = s.lastLevel := rfl
@[simp] theorem State.withTimer_pwmCmp (s : State) (u : Timer) :
    (s.withTimer u).pwmCmp = s.pwmCmp := rfl
@[simp] theorem State.withTimer_pwmEn (s : State) (u : Timer) :
    (s.withTimer u).pwmEn = s.pwmEn := rfl
@[simp] theorem State.withTimer_rspValid (s : State) (u : Timer) :
    (s.withTimer u).rspValid = s.rspValid := rfl
@[simp] theorem State.withTimer_rspData (s : State) (u : Timer) :
    (s.withTimer u).rspData = s.rspData := rfl
@[simp] theorem State.withTimer_rspErr (s : State) (u : Timer) :
    (s.withTimer u).rspErr = s.rspErr := rfl
@[simp] theorem State.withTimer_timer (s : State) (u : Timer) : (s.withTimer u).timer = u := rfl
@[simp] theorem State.withTimer_inputs (s : State) (u : Timer) :
    (s.withTimer u).inputs = s.inputs := rfl

/-! ### State.resetBlock -/

@[simp] theorem State.resetBlock_cfg (s : State) : (s.resetBlock).cfg = s.cfg := rfl
@[simp] theorem State.resetBlock_wins (s : State) :
    (s.resetBlock).wins = List.replicate s.cfg.numWin (Window.zero s.cfg) := rfl
@[simp] theorem State.resetBlock_lastLevel (s : State) : (s.resetBlock).lastLevel = .low := rfl
@[simp] theorem State.resetBlock_pwmCmp (s : State) : (s.resetBlock).pwmCmp = 0 := rfl
@[simp] theorem State.resetBlock_pwmEn (s : State) : (s.resetBlock).pwmEn = false := rfl
@[simp] theorem State.resetBlock_rspValid (s : State) : (s.resetBlock).rspValid = false := rfl
@[simp] theorem State.resetBlock_rspData (s : State) : (s.resetBlock).rspData = 0 := rfl
@[simp] theorem State.resetBlock_rspErr (s : State) : (s.resetBlock).rspErr = false := rfl
@[simp] theorem State.resetBlock_timer (s : State) : (s.resetBlock).timer = Timer.zero := rfl
@[simp] theorem State.resetBlock_inputs (s : State) : (s.resetBlock).inputs = s.inputs := rfl

/-! ### State.resetOf -/

@[simp] theorem State.resetOf_cfg (p : Params) : (State.resetOf p).cfg = p := rfl
@[simp] theorem State.resetOf_wins (p : Params) :
    (State.resetOf p).wins = List.replicate p.numWin (Window.zero p) := rfl
@[simp] theorem State.resetOf_lastLevel (p : Params) : (State.resetOf p).lastLevel = .low := rfl
@[simp] theorem State.resetOf_pwmCmp (p : Params) : (State.resetOf p).pwmCmp = 0 := rfl
@[simp] theorem State.resetOf_pwmEn (p : Params) : (State.resetOf p).pwmEn = false := rfl
@[simp] theorem State.resetOf_rspValid (p : Params) : (State.resetOf p).rspValid = false := rfl
@[simp] theorem State.resetOf_rspData (p : Params) : (State.resetOf p).rspData = 0 := rfl
@[simp] theorem State.resetOf_rspErr (p : Params) : (State.resetOf p).rspErr = false := rfl
@[simp] theorem State.resetOf_timer (p : Params) : (State.resetOf p).timer = Timer.zero := rfl
@[simp] theorem State.resetOf_inputs (p : Params) : (State.resetOf p).inputs = [] := rfl

@[simp] theorem State.nextInput_present (s : State) (e : PortInput) :
    (s.present e).nextInput = e := rfl

@[simp] theorem State.accept_present (s : State) (e : PortInput) : (s.present e).accept = s := rfl

end Sys2Proof.Machine
end

