-- ==== Sys2Proof/Laws/Exec.lean ====
section
/-! SUPPORT. What each command does, as one equation over the named updates, and what none of them
touches. -/

namespace Sys2Proof.Machine

section Equations

variable (s : State)

theorem exec_nop : exec .nop s = .next s.noResponse := rfl

theorem exec_sample {w : Nat} (raw : Word) (h : w < s.cfg.numWin) :
    exec (.sample w raw) s =
      .next ((s.setWindow w ((s.window w).push s.cfg (rawOperand s.cfg raw))).respond
        (((s.window w).push s.cfg (rawOperand s.cfg raw)).average s.cfg)) := by
  simp [exec, execSample, h]

theorem exec_sample_invalid {w : Nat} (raw : Word) (h : s.cfg.numWin ≤ w) :
    exec (.sample w raw) s = .next s.invalid := by
  simp [exec, execSample, Nat.not_lt.mpr h]

theorem exec_poll (e : Edge) (l : Level) :
    exec (.poll e l) s =
      .next ((s.latch l).respond (BitVec.ofNat 16 (triggered s.lastLevel l e).toNat)) := rfl

theorem exec_map (t : TableId) (index : Word) :
    exec (.map t index) s =
      .next (s.respond (romRead s.cfg t (saturateIndex s.cfg t index))) := rfl

theorem exec_pwmEnable : exec .pwmEnable s = .next (s.setEnable true).noResponse := rfl

theorem exec_pwmDisable : exec .pwmDisable s = .next (s.setEnable false).noResponse := rfl

theorem exec_pwmSet (v : Word) :
    exec (.pwmSet v) s = .next (s.setCompare (levelOperand s.cfg v)).noResponse := rfl

end Equations

/-- Every command ends in a next state that keeps the parameters, the input stream and the timer. -/
theorem exec_next (i : Instr) (s : State) :
    ∃ t, exec i s = .next t ∧ t.cfg = s.cfg ∧ t.inputs = s.inputs ∧ t.timer = s.timer := by
  cases i with
  | sample w raw =>
    by_cases h : w < s.cfg.numWin
    · exact ⟨_, exec_sample s raw h, rfl, rfl, rfl⟩
    · exact ⟨_, exec_sample_invalid s raw (Nat.not_lt.mp h), rfl, rfl, rfl⟩
  | _ => exact ⟨_, rfl, rfl, rfl, rfl⟩

/-- What a command may write, if it answers `t`. -/
theorem exec_cases {i : Instr} {s t : State} (h : exec i s = .next t) :
    (i = .nop ∧ t = s.noResponse) ∨
    (∃ w raw, i = .sample w raw ∧ w < s.cfg.numWin ∧
      t = (s.setWindow w ((s.window w).push s.cfg (rawOperand s.cfg raw))).respond
        (((s.window w).push s.cfg (rawOperand s.cfg raw)).average s.cfg)) ∨
    (∃ w raw, i = .sample w raw ∧ s.cfg.numWin ≤ w ∧ t = s.invalid) ∨
    (∃ e l, i = .poll e l ∧
      t = (s.latch l).respond (BitVec.ofNat 16 (triggered s.lastLevel l e).toNat)) ∨
    (∃ tb index, i = .map tb index ∧
      t = s.respond (romRead s.cfg tb (saturateIndex s.cfg tb index))) ∨
    (∃ b, i = (if b then Instr.pwmEnable else .pwmDisable) ∧ t = (s.setEnable b).noResponse) ∨
    (∃ v, i = .pwmSet v ∧ t = (s.setCompare (levelOperand s.cfg v)).noResponse) := by
  cases i with
  | nop => cases h; exact .inl ⟨rfl, rfl⟩
  | sample w raw =>
    by_cases hw : w < s.cfg.numWin
    · rw [exec_sample s raw hw] at h; cases h
      exact .inr (.inl ⟨w, raw, rfl, hw, rfl⟩)
    · rw [exec_sample_invalid s raw (Nat.not_lt.mp hw)] at h; cases h
      exact .inr (.inr (.inl ⟨w, raw, rfl, Nat.not_lt.mp hw, rfl⟩))
  | poll e l => cases h; exact .inr (.inr (.inr (.inl ⟨e, l, rfl, rfl⟩)))
  | map tb index => cases h; exact .inr (.inr (.inr (.inr (.inl ⟨tb, index, rfl, rfl⟩))))
  | pwmEnable => cases h; exact .inr (.inr (.inr (.inr (.inr (.inl ⟨true, rfl, rfl⟩)))))
  | pwmDisable => cases h; exact .inr (.inr (.inr (.inr (.inr (.inl ⟨false, rfl, rfl⟩)))))
  | pwmSet v => cases h; exact .inr (.inr (.inr (.inr (.inr (.inr ⟨v, rfl, rfl⟩)))))

end Sys2Proof.Machine
end

