-- ==== Sys2Proof/Laws/PerInstr.lean ====
section
/-! SUPPORT. Laws about an instruction as syntax, one lemma per constructor. `Layout`: the encoder puts
the opcode of R62 in OP and 0 in RSV (R54, R72). -/

namespace Sys2Proof.Laws.Layout

/-- The opcode of an instruction (R62). -/
def opcode : Instr → BitVec 4
  | .nop => 0x0
  | .sample _ _ => 0x1
  | .poll _ _ => 0x2
  | .map _ _ => 0x3
  | .pwmEnable => 0x4
  | .pwmDisable => 0x5
  | .pwmSet _ => 0x6

/-- The encoded word has the instruction's opcode, and RSV 0. -/
def Statement (i : Instr) : Prop :=
  opField (encode i) = opcode i ∧ rsvField (encode i) = 0

theorem nop : Statement .nop := by simp [Statement, encode, opcode]

theorem sample (win : Nat) (raw : Word) : Statement (.sample win raw) := by
  simp [Statement, encode, opcode]

theorem poll (edge : Edge) (level : Level) : Statement (.poll edge level) := by
  simp [Statement, encode, opcode]

theorem map (table : TableId) (index : Word) : Statement (.map table index) := by
  simp [Statement, encode, opcode]

theorem pwmEnable : Statement .pwmEnable := by simp [Statement, encode, opcode]

theorem pwmDisable : Statement .pwmDisable := by simp [Statement, encode, opcode]

theorem pwmSet (value : Word) : Statement (.pwmSet value) := by
  simp [Statement, encode, opcode]

end Sys2Proof.Laws.Layout
end

