-- ==== Sys2Proof/Laws/Timer.lean ====
section
/-! SUPPORT. The environment timer's step, one lemma per branch of R134. -/

namespace Sys2Proof.Machine

variable (p : Params) (cmp : Word) (t : Timer)

@[simp] theorem timerStep_rst (en : Bool) : timerStep p true en cmp t = Timer.zero := rfl

@[simp] theorem timerStep_disabled :
    timerStep p false false cmp t = { cnt := 0, active := cmp, irq := false } := rfl

theorem timerStep_boundary (h : t.cnt = p.pwmTop) :
    timerStep p false true cmp t = { cnt := 0, active := cmp, irq := true } := by
  simp [timerStep, h]

/-- Inside a period the count goes up by one, exactly (R134). -/
theorem timerStep_within (hp : p.Legal) (h : t.cnt < p.pwmTop) :
    timerStep p false true cmp t = { cnt := t.cnt + 1, active := t.active, irq := false } := by
  have : t.cnt + 1 < 2 ^ p.pwmW := lt_of_le_of_lt h hp.2.2.2.2.1
  simp [timerStep, h.ne, narrow_eq_self this]

end Sys2Proof.Machine
end

