-- ==== Sys2Proof/Laws/Step.lean ====
section
/-! SUPPORT. What a clock step can do, said once: four cases by what the edge fetches. -/

namespace Sys2Proof.Machine

section ByFetch

variable {s : State}

theorem step_of_reset (h : s.fetch = .reset) :
    step s = .next (s.accept.resetBlock.withTimer s.timerAfter) := by
  simp [step, blockEdge, h, onNext]

theorem step_of_idle (h : s.fetch = .idle) :
    step s = .next (s.accept.noResponse.withTimer s.timerAfter) := by
  simp [step, blockEdge, h, onNext]

theorem step_of_invalid {why : Reject} (h : s.fetch = .invalid why) :
    step s = .next (s.accept.invalid.withTimer s.timerAfter) := by
  simp [step, blockEdge, h, onNext]

theorem step_of_command {i : Instr} (h : s.fetch = .command i) {t : State}
    (he : exec i s.accept = .next t) : step s = .next (t.withTimer s.timerAfter) := by
  simp [step, blockEdge, h, he, onNext]

end ByFetch

/-! ### What an edge fetches -/

theorem fetch_of_rst {s : State} (h : s.nextInput.rst = true) : s.fetch = .reset := by
  simp [State.fetch, h]

theorem fetch_of_idle {s : State} (h : s.nextInput.rst = false)
    (hv : s.nextInput.cmdValid = false) : s.fetch = .idle := by
  simp [State.fetch, h, hv]

theorem fetch_of_command {s : State} {i : Instr} (h : s.nextInput.rst = false)
    (hv : s.nextInput.cmdValid = true) (hd : decode s.cfg s.nextInput.cmd = .instr i) :
    s.fetch = .command i := by
  simp [State.fetch, h, hv, hd]

theorem fetch_of_invalid {s : State} {why : Reject} (h : s.nextInput.rst = false)
    (hv : s.nextInput.cmdValid = true) (hd : decode s.cfg s.nextInput.cmd = .rejected why) :
    s.fetch = .invalid why := by
  simp [State.fetch, h, hv, hd]

theorem fetch_command_inv {s : State} {i : Instr} (h : s.fetch = .command i) :
    s.nextInput.rst = false ∧ s.nextInput.cmdValid = true ∧
      decode s.cfg s.nextInput.cmd = .instr i := by
  unfold State.fetch at h
  split at h
  · cases h
  · split at h
    · split at h <;> cases h
      exact ⟨by simpa using ‹¬_ = true›, ‹_›, ‹_›⟩
    · cases h

/-- Every step ends in a next state that keeps the parameters, consumes one input and has the timer of
R134. -/
theorem step_next (s : State) :
    ∃ t, step s = .next t ∧ t.cfg = s.cfg ∧ t.inputs = s.inputs.tail ∧
      t.timer = s.timerAfter := by
  cases h : s.fetch with
  | reset => exact ⟨_, step_of_reset h, rfl, rfl, rfl⟩
  | idle => exact ⟨_, step_of_idle h, rfl, rfl, rfl⟩
  | invalid why => exact ⟨_, step_of_invalid h, rfl, rfl, rfl⟩
  | command i =>
    obtain ⟨t, he, hc, hi, -⟩ := exec_next i s.accept
    exact ⟨_, step_of_command h he, hc, hi, rfl⟩

/-- The cases of a step that answers `t`. -/
theorem step_cases {s t : State} (h : step s = .next t) :
    (s.fetch = .reset ∧ t = s.accept.resetBlock.withTimer s.timerAfter) ∨
    (s.fetch = .idle ∧ t = s.accept.noResponse.withTimer s.timerAfter) ∨
    (∃ why, s.fetch = .invalid why ∧ t = s.accept.invalid.withTimer s.timerAfter) ∨
    (∃ i u, s.fetch = .command i ∧ exec i s.accept = .next u ∧
      t = u.withTimer s.timerAfter) := by
  cases hf : s.fetch with
  | reset => rw [step_of_reset hf] at h; cases h; exact .inl ⟨rfl, rfl⟩
  | idle => rw [step_of_idle hf] at h; cases h; exact .inr (.inl ⟨rfl, rfl⟩)
  | invalid why =>
    rw [step_of_invalid hf] at h; cases h; exact .inr (.inr (.inl ⟨why, rfl, rfl⟩))
  | command i =>
    obtain ⟨u, he, -⟩ := exec_next i s.accept
    rw [step_of_command hf he] at h; cases h
    exact .inr (.inr (.inr ⟨i, u, rfl, he, rfl⟩))

end Sys2Proof.Machine
end

