-- ==== Sys2Proof/Laws/Run.lean ====
section
/-! SUPPORT. Runs of the machine: one edge at a time, and one run after another. -/

namespace Sys2Proof.Machine

/-- The command of the next input is the one the edge fetches. -/
theorem instr?_eq_some_iff {s : State} {i : Instr} :
    s.nextInput.instr? s.cfg = some i ↔ s.fetch = .command i := by
  unfold PortInput.instr? State.fetch
  cases s.nextInput.rst <;> cases s.nextInput.cmdValid <;>
    cases decode s.cfg s.nextInput.cmd <;> simp

theorem instr?_eq_none {s : State} (h : ∀ i, s.fetch ≠ .command i) :
    s.nextInput.instr? s.cfg = none :=
  Option.eq_none_iff_forall_ne_some.mpr fun i hi => h i (instr?_eq_some_iff.mp hi)

theorem reaches_zero {s t : State} : Reaches 0 s t ↔ t = s := by
  constructor
  · intro h; cases h; rfl
  · rintro rfl; rfl

theorem reaches_succ {n : Nat} {s t : State} :
    Reaches (n + 1) s t ↔ ∃ u, step s = .next u ∧ Reaches n u t := by
  obtain ⟨u, hu, -⟩ := step_next s
  have hc : Sys2Proof.core.step s = .next u := hu
  constructor
  · intro h
    refine ⟨u, hu, ?_⟩
    simpa only [Reaches, Host.Core.run, hc] using h
  · rintro ⟨u', hu', h⟩
    rw [hu] at hu'
    cases hu'
    simpa only [Reaches, Host.Core.run, hc] using h

theorem reaches_one {s t : State} : Reaches 1 s t ↔ step s = .next t := by
  simp [reaches_succ, reaches_zero]

theorem reaches_add {m n : Nat} {s t : State} :
    Reaches (m + n) s t ↔ ∃ u, Reaches m s u ∧ Reaches n u t := by
  induction m generalizing s with
  | zero => simp [reaches_zero]
  | succ m ih =>
    rw [Nat.succ_add, reaches_succ]
    simp only [ih, reaches_succ]
    constructor
    · rintro ⟨u, hu, v, hv, ht⟩; exact ⟨v, ⟨u, hu, hv⟩, ht⟩
    · rintro ⟨v, ⟨u, hu, hv⟩, ht⟩; exact ⟨u, hu, v, hv, ht⟩

end Sys2Proof.Machine
end

