-- ==== Sys2Proof/Laws/Window.lean ====
section
/-! SUPPORT. The sampling windows: reading one, replacing one, and what a push does to a sound one. -/

namespace Sys2Proof.Machine

/-! ### Reading and replacing a window -/

theorem State.window_eq_getElem (s : State) {w : Nat} (h : w < s.wins.length) :
    s.window w = s.wins[w] := by
  simp [State.window, List.getD_eq_getElem?_getD, h]

theorem State.window_setWindow_self (s : State) {w : Nat} (v : Window) (h : w < s.wins.length) :
    (s.setWindow w v).window w = v := by
  simp [State.window, h]

theorem State.window_setWindow_ne (s : State) {w w' : Nat} (v : Window) (h : w ≠ w') :
    (s.setWindow w v).window w' = s.window w' := by
  simp [State.window, h]

theorem State.window_resetOf (p : Params) (w : Nat) :
    (State.resetOf p).window w = Window.zero p := by
  simp only [State.window, State.resetOf, List.getD_eq_getElem?_getD, List.getElem?_replicate]
  split <;> rfl

/-! ### Totals -/

theorem total_eq_sum_set {l : List Word} {k : Nat} (h : k < l.length) (r : Word) :
    ((l.set k r).map BitVec.toNat).sum + (l.getD k 0).toNat =
      (l.map BitVec.toNat).sum + r.toNat := by
  induction l generalizing k with
  | nil => simp at h
  | cons a l ih =>
    cases k with
    | zero => simp; omega
    | succ k =>
      have := ih (k := k) (by simpa using h)
      simp only [List.set_cons_succ, List.map_cons, List.sum_cons, List.getD_cons_succ]
      omega

theorem getD_le_total (l : List Word) (k : Nat) :
    (l.getD k 0).toNat ≤ (l.map BitVec.toNat).sum := by
  induction l generalizing k with
  | nil => simp
  | cons a l ih =>
    cases k with
    | zero => simp
    | succ k =>
      have := ih k
      simp only [List.getD_cons_succ, List.map_cons, List.sum_cons]
      omega

theorem total_le (l : List Word) {m : Nat} (h : ∀ r ∈ l, r.toNat ≤ m) :
    (l.map BitVec.toNat).sum ≤ l.length * m := by
  induction l with
  | nil => simp
  | cons a l ih =>
    have h1 := ih fun r hr => h r (by simp [hr])
    have h2 := h a (by simp)
    simp only [List.map_cons, List.sum_cons, List.length_cons, Nat.succ_mul]
    omega

/-! ### A sound window -/

namespace Window

variable {p : Params} {v : Window}

theorem zero_ok (hN : 1 ≤ p.windowN) : Ok p (Window.zero p) where
  slots_length := by simp [Window.zero]
  slots_fit r hr := by simp_all [Window.zero]
  sum_total := by simp [Window.zero, Window.total]
  cur_lt := hN

theorem Ok.evicted_le_sum (h : Ok p v) : v.evicted.toNat ≤ v.sum :=
  h.sum_total ▸ getD_le_total v.slots v.cur

/-- The slots of a window after a push are sound slots. -/
theorem Ok.push_slots_fit (h : Ok p v) {raw : Word} (hr : raw.toNat < 2 ^ p.adcW) :
    ∀ r ∈ (v.push p raw).slots, r.toNat < 2 ^ p.adcW := fun r hm =>
  (List.mem_or_eq_of_mem_set hm).elim (h.slots_fit r) fun e => e ▸ hr

/-- The total of the slots after a push, on exact natural numbers (R79). -/
theorem Ok.push_total (h : Ok p v) (raw : Word) :
    (v.push p raw).total = v.sum + raw.toNat - v.evicted.toNat := by
  have := total_eq_sum_set (l := v.slots) (k := v.cur)
    (by rw [h.slots_length]; exact h.cur_lt) raw
  have hs := h.sum_total
  simp only [Window.total, Window.push, Window.evicted] at *
  omega

theorem Ok.push_total_le (h : Ok p v) {raw : Word}
    (hr : raw.toNat < 2 ^ p.adcW) : (v.push p raw).total ≤ p.windowN * (2 ^ p.adcW - 1) := by
  have := total_le (v.push p raw).slots (m := 2 ^ p.adcW - 1) fun r hm => by
    have := h.push_slots_fit hr r hm; omega
  rwa [show (v.push p raw).slots.length = p.windowN by simp [Window.push, h.slots_length]] at this

/-- The sum after a push, exact: the register neither wraps nor saturates (R79). -/
theorem Ok.push_sum (h : Ok p v) (hN : 1 ≤ p.windowN) {raw : Word}
    (hr : raw.toNat < 2 ^ p.adcW) :
    (v.push p raw).sum = v.sum + raw.toNat - v.evicted.toNat := by
  refine updatedSum_exact h.evicted_le_sum ?_
  rw [← h.push_total raw]
  exact lt_of_le_of_lt (h.push_total_le hr) (sum_bound_lt p hN)

/-- A push of a reading of ADC_W bits keeps a window sound (R84). -/
theorem Ok.push (h : Ok p v) (hN : 1 ≤ p.windowN) {raw : Word} (hr : raw.toNat < 2 ^ p.adcW) :
    Ok p (v.push p raw) where
  slots_length := by simp [Window.push, h.slots_length]
  slots_fit := h.push_slots_fit hr
  sum_total := by rw [h.push_sum hN hr, h.push_total raw]
  cur_lt := Nat.mod_lt _ hN

end Window

end Sys2Proof.Machine
end

