-- ==== Sys2Proof/Tests/Slice0.lean ====
section
/-! SUPPORT. Tests with expected results from 95_test_vectors.md and the rules' worked examples, the
ill-formed terms WellFormed refuses, and for each statement with hypotheses a witness that meets them. -/

namespace Sys2Proof.Tests

open Sys2Proof Sys2Proof.Machine

/-! ### The instance of the tests -/

/-- The test ROM `TROM` of 95_test_vectors.md. -/
def trom : Tables where
  freq     := [0x0064, 0x00C8, 0x0190, 0x0320]
  exp      := [0x0001, 0xFFFF]
  log      := [0x0000, 0x8000, 0xFFFF]
  semitone := [0x0000, 0x0010, 0x0010, 0x0020, 0x0020, 0x0030, 0x0040, 0x0050]
  major    := [0x0007]

/-- The default parameters with TROM, and PWM_TOP = 3 as in program P5. -/
def par : Params where
  adcW := 10
  windowN := 4
  numWin := 4
  pwmW := 16
  tables := trom
  pwmTop := 3
  pwmIdleLevel := .low
  cmdByteOrder := .leastSignificantFirst

/-- ResetState of the test instance. -/
def start : State := State.resetOf par

/-- A property of the state after one edge that presents a word. -/
def after (s : State) (w : Cmd) (f : State → Bool) : Bool :=
  match step (s.present (.command w)) with
  | .next t => f t
  | .fault _ => false
  | .refused _ => false

/-- `rsp` of 95_test_vectors.md: valid, data, error. -/
def rsp (s : State) : Bool × Word × Bool := (s.rspValid, s.rspData, s.rspErr)

/-! ### WellFormed refuses -/

theorem test_wf_window : (Instr.sample 4 0).wellFormed par = false := by decide
theorem test_wf_raw : (Instr.sample 0 1024).wellFormed par = false := by decide
theorem test_wf_compare : (Instr.pwmSet 0x100).wellFormed { par with pwmW := 8 } = false := by decide
theorem test_wf_accepts : (Instr.sample 3 1023).wellFormed par = true := by decide

/-! ### Decoding: words written out from R54, R62 and R73 -/

theorem test_decode_nop :
    decode par 0b0000_0000_11111111_1111111111111111#32 = .instr .nop := by decide
theorem test_decode_sample :
    decode par 0b0001_0011_00000000_0000001111111111#32 = .instr (.sample 3 1023) := by decide
theorem test_decode_sample_ignored :
    decode par 0b0001_0000_11111111_0000010001100100#32 = .instr (.sample 0 100) := by decide
theorem test_decode_poll :
    decode par 0b0010_0001_00000000_0000000000000000#32 = .instr (.poll .falling .low) := by decide
theorem test_decode_poll_ignored :
    decode par 0b0010_0000_00000000_1111111111111110#32 = .instr (.poll .rising .low) := by decide
theorem test_decode_map :
    decode par 0b0011_0100_00000000_1111111111111111#32 = .instr (.map .major 0xFFFF) := by decide
theorem test_decode_pwmEnable :
    decode par 0b0100_0000_00000000_1111111111111111#32 = .instr .pwmEnable := by decide
theorem test_decode_pwmDisable :
    decode par 0b0101_0000_00000000_0000000000000000#32 = .instr .pwmDisable := by decide
theorem test_decode_pwmSet :
    decode par 0b0110_0000_00000000_1000000000000000#32 = .instr (.pwmSet 0x8000) := by decide
theorem test_decode_reject_opcode : decode par 0x70000000 = .rejected .opcodeUnassigned := by decide
theorem test_decode_reject_window : decode par 0x14000064 = .rejected .windowOutOfRange := by decide
theorem test_decode_reject_edge : decode par 0x22000001 = .rejected .edgeSelOutOfRange := by decide
theorem test_decode_reject_table : decode par 0x35000000 = .rejected .tableOutOfRange := by decide
theorem test_decode_reject_sel : decode par 0x61000005 = .rejected .selNotZero := by decide
theorem test_table_word : decodeTableWord 32 0x20000001 = some (.poll .rising .high) := by decide
theorem test_table_word_invalid : decodeTableWord 32 0x70000000 = none := by decide

/-- The spelling of R69: a comment, a hexadecimal literal, a refused window. -/
theorem test_asm_comment :
    assembleLine par "  SAMPLE 0, 0x64 ; first".toList = some 0x10000064 := by decide
theorem test_asm_refused : parseLine par "SAMPLE 4, 1".toList = .refused := by decide
/-- Operands that would fit if they were cut to 16 bits. -/
theorem test_asm_not_cut :
    parseLine par "SAMPLE 0, 65541".toList = .refused ∧
      parseLine par "MAP FREQ, 0x10000".toList = .refused := by decide

/-! ### One step -/

/-- N1. -/
theorem test_nop :
    after (start.respond 25) 0x00000000 (fun t => rsp t = (false, 25, false)) = true := by decide

/-- V1, R88. -/
theorem test_sample_first :
    after start 0x10000064 (fun t => rsp t = (true, 25, false) ∧
      t.wins.head? = some ⟨[100, 0, 0, 0], 100, 1⟩) = true := by decide

/-- V5: the last SAMPLE evicts 400 and its result is 100. -/
theorem test_sample_evicts :
    after { start with wins := [⟨[400, 0, 0, 400], 800, 3⟩, Window.zero par, Window.zero par,
        Window.zero par] } 0x10000000
      (fun t => rsp t = (true, 100, false) ∧ t.wins.head? = some ⟨[400, 0, 0, 0], 400, 0⟩) =
      true := by decide

/-- E7. -/
theorem test_poll_falling :
    after (start.latch .high) 0x21000000
      (fun t => rsp t = (true, 1, false) ∧ t.lastLevel = .low) = true := by decide

/-- E6. -/
theorem test_poll_consumes :
    after start 0x21000001 (fun t => rsp t = (true, 0, false) ∧ t.lastLevel = .high) = true := by
  decide

/-- M9, R108. -/
theorem test_map : after start 0x33000005 (fun t => rsp t = (true, 0x0030, false)) = true := by
  decide

/-- M3. -/
theorem test_map_saturates :
    after start 0x30000004 (fun t => rsp t = (true, 0x0320, false)) = true := by decide

/-- W7. -/
theorem test_pwmEnable :
    after start 0x4000FFFF (fun t => t.pwmEn = true ∧ rsp t = (false, 0, false)) = true := by decide

/-- P3, edge 5. -/
theorem test_pwmDisable :
    after ((start.setCompare 0x0200).setEnable true) 0x50000000
      (fun t => t.pwmEn = false ∧ t.pwmCmp = 0x0200) = true := by decide

/-- W5, with PWM_W = 8. -/
theorem test_pwmSet_low_bits :
    after (State.resetOf { par with pwmW := 8 }) 0x60001234
      (fun t => t.pwmCmp = 0x34 ∧ t.pwmEn = false) = true := by decide

/-- W8: the response data is kept. -/
theorem test_pwmSet_keeps_response :
    after (start.respond 25) 0x60000100
      (fun t => rsp t = (false, 25, false) ∧ t.pwmCmp = 0x0100) = true := by decide

/-- N6. -/
theorem test_invalid :
    after (start.respond 25) 0xFFFFFFFF
      (fun t => rsp t = (true, 0, true) ∧ t.wins = start.wins) = true := by decide

/-- P5, edge 6: the timer ends a period, repeats the width and pulses. -/
theorem test_timer_boundary :
    after { start with pwmCmp := 2, pwmEn := true, timer := ⟨3, 2, false⟩ } 0x00000000
      (fun t => t.timer = ⟨0, 2, true⟩ ∧ t.pwmPin = .high) = true := by decide

/-- P5, edge 11: the timer still counts at the edge that disables it. -/
theorem test_timer_disable :
    after { start with pwmCmp := 3, pwmEn := true, timer := ⟨0, 3, true⟩ } 0x50000000
      (fun t => t.timer = ⟨1, 3, false⟩ ∧ t.pwmPin = .low) = true := by decide

/-- The first instruction after reset is the word presented (R153). -/
theorem test_fetch_word :
    (match step (State.reset.withFetchWord 32 0x10000064) with
      | .next t => decide (rsp t = (true, 25, false))
      | .fault _ => false
      | .refused _ => false) = true := by decide

/-! ### Witnesses: states and operands that meet the hypotheses of the statements -/

theorem par_legal : par.Legal := by decide

/-- ResetState of the test instance is sound. -/
theorem start_inv : start.Inv where
  cfg_legal := par_legal
  wins_length := rfl
  wins_ok v hv := (List.eq_of_mem_replicate hv : v = Window.zero par) ▸ Window.zero_ok (by decide)
  cmp_fits := by decide
  cnt_le := by decide
  active_fits := by decide
  irq_at_start := by decide
  err_data := by decide

/-- Enabled, the count at `k`. -/
def running (k : Nat) : State := { start with pwmEn := true, timer := ⟨k, 0, false⟩ }

theorem running_inv {k : Nat} (hk : k ≤ 3) : (running k).Inv :=
  { start_inv with cnt_le := hk, irq_at_start := fun h => nomatch h }

/-- The next state of a step, from the lemma that there is one. -/
theorem some_step (s : State) : ∃ t, step s = .next t :=
  (step_next s).imp fun _ h => h.1

theorem some_exec (i : Instr) (s : State) : ∃ t, exec i s = .next t :=
  (exec_next i s).imp fun _ h => h.1

theorem witness_DecodeOfEncodeIsIdentity :
    par.Legal ∧ (Instr.sample 3 1023).wellFormed par = true ∧
      (Instr.pwmSet 0xFFFF).wellFormed par = true := by decide

theorem witness_EncodeOfDecodeClearsIgnoredBits :
    par.Legal ∧ decode par 0x10FF0464 = .instr (.sample 0 100) ∧
      decode par 0x2100FFFE = .instr (.poll .falling .low) ∧
      decode par 0x34FF1234 = .instr (.map .major 0x1234) ∧
      decode par 0x60FF8000 = .instr (.pwmSet 0x8000) ∧
      decode par 0x40FFFFFF = .instr .pwmEnable := by decide

theorem witness_EveryWordDecodesByItsFields :
    validWord par 0x13000000 ∧ ¬validWord par 0x14000000 ∧ validWord par 0x21000000 ∧
      ¬validWord par 0x22000000 ∧ validWord par 0x34000000 ∧ ¬validWord par 0x35000000 ∧
      validWord par 0x60000000 ∧ ¬validWord par 0x70000000 := by
  simp [validWord, opField, selField, par]

theorem witness_IgnoredBitsHaveNoEffect :
    (opField 0x10FF0464 = opField 0x10000064 ∧ selField 0x10FF0464 = selField 0x10000064 ∧
      lowBits start.cfg.adcW (dataField 0x10FF0464) =
        lowBits start.cfg.adcW (dataField 0x10000064)) ∧
    (opField 0x2000FFFE = 2 ∧ (dataField 0x2000FFFE).getLsbD 0 = (dataField 0x20000000).getLsbD 0) ∧
    (opField 0x30FF0001 = 3 ∧ dataField 0x30FF0001 = dataField 0x30000001) ∧
    (opField 0x60FF0001 = 6 ∧ lowBits 16 (dataField 0x60FF0001) = lowBits 16 (dataField 0x60000001)) := by
  decide

theorem witness_AssembledCommandsAreWellFormed :
    parseLine par "SAMPLE 3, 1023".toList = .command (.sample 3 1023) := by decide

/-- Numbers on both sides of each bound: 3 and 4 for `w`, 1023 and 1024 for `raw`, 65535 and 65536 for an
index and a compare value. -/
theorem witness_AssemblerWritesEachFieldOrRefuses :
    par.Legal ∧
    (parseLiteral "3".toList = some 3 ∧ 3 < par.numWin) ∧
    (parseLiteral "0x4".toList = some 4 ∧ par.numWin ≤ 4) ∧
    (parseLiteral "1023".toList = some 1023 ∧ 1023 < 2 ^ par.adcW) ∧
    (parseLiteral "0x400".toList = some 1024 ∧ 2 ^ par.adcW ≤ 1024) ∧
    (parseLiteral "65535".toList = some 65535 ∧ 65535 < 2 ^ par.pwmW) ∧
    (parseLiteral "0x10000".toList = some 65536 ∧ 2 ^ par.pwmW ≤ 65536) ∧
    (∃ text, "; first".toList = ';' :: text) :=
  ⟨par_legal, by decide, by decide, by decide, by decide, by decide, by decide, _, rfl⟩

theorem witness_BytesPresentTheWholeWord :
    start.cfg.cmdByteOrder = .leastSignificantFirst ∧
      (State.resetOf { par with cmdByteOrder := .mostSignificantFirst }).cfg.cmdByteOrder =
        .mostSignificantFirst := by decide

theorem witness_StepRunsTheDecodedCommand :
    (start.present (.command 0x10000064)).inputs = .command 0x10000064 :: start.inputs ∧
      (PortInput.command 0x10000064).rst = false ∧
      (PortInput.command 0x10000064).cmdValid = true ∧
      decode start.cfg 0x10000064 = .instr (.sample 0 100) := by decide

theorem witness_InvalidCommandOnlyResponds : ¬validWord start.cfg 0x70000000 := by
  simp [validWord, opField]

theorem witness_ResetEdgeDiscardsTheCommand :
    ({ rst := true, cmdValid := true, cmd := 0x10000064 } : PortInput).rst = true := rfl

theorem witness_StepKeepsInvariant : ∃ t, start.Inv ∧ step start = .next t :=
  (some_step start).imp fun _ h => ⟨start_inv, h⟩

theorem witness_DefaultSumWidth :
    par.adcW = 10 ∧ par.windowN = 4 ∧ Window.Ok par ⟨[1023, 1023, 1023, 1023], 4092, 0⟩ :=
  ⟨rfl, rfl, { slots_length := rfl, slots_fit := by simp [par], sum_total := by simp [Window.total]
               cur_lt := by decide }⟩

theorem witness_Clog2IsSmallest : (1 ≤ 1 ∧ 1 ≤ 2 ^ 0) ∧ 1 ≤ 5 ∧ 5 ≤ 2 ^ 3 ∧ ¬5 ≤ 2 ^ 2 := by decide

theorem witness_SampleUpdatesWindowAndAnswersAverage :
    start.Inv ∧ 3 < start.cfg.numWin ∧ (1023 : Word).toNat < 2 ^ start.cfg.adcW :=
  ⟨start_inv, by decide, by decide⟩

theorem witness_SampleSumNeverWraps :
    ∃ t v v' evicted, start.Inv ∧ (1023 : Word).toNat < 2 ^ start.cfg.adcW ∧
      3 < start.cfg.numWin ∧ start.wins[3]? = some v ∧ v.slots[v.cur]? = some evicted ∧
      exec (.sample 3 1023) start = .next t ∧ t.wins[3]? = some v' :=
  ⟨_, Window.zero par, (start.window 3).push start.cfg (rawOperand start.cfg 1023), 0, start_inv,
    by decide, by decide, rfl, rfl, exec_sample start 1023 (by decide), by
      rw [State.respond_wins, State.setWindow_wins]; exact List.getElem?_set_self (by decide)⟩

theorem witness_SampleErrsOnlyOutOfRange :
    3 < start.cfg.numWin ∧ start.cfg.numWin ≤ 4 ∧ opField 0x14000064 = 1 ∧
      start.cfg.numWin ≤ (selField 0x14000064).toNat := by decide

theorem witness_SampleLeavesTheRestAlone : ∃ t, exec (.sample 0 100) start = .next t ∧ 1 ≠ 0 :=
  (some_exec _ _).imp fun _ h => ⟨h, by decide⟩

theorem witness_SampleKeepsWindowSound :
    (∃ t, par.Legal ∧ Reaches 1 { start with inputs := [.command 0x10000064] } t) ∧
    ∃ t v v', start.cfg.Legal ∧ start.wins[0]? = some v ∧ Window.Ok start.cfg v ∧
      exec (.sample 0 100) start = .next t ∧ t.wins[0]? = some v' :=
  ⟨(some_step _).imp fun _ h => ⟨par_legal, reaches_one.mpr h⟩,
    _, Window.zero par, (start.window 0).push start.cfg (rawOperand start.cfg 100), par_legal, rfl,
    Window.zero_ok (by decide), exec_sample start 100 (by decide), by
      rw [State.respond_wins, State.setWindow_wins]; exact List.getElem?_set_self (by decide)⟩

theorem witness_SampleResultFitsTheReading :
    start.Inv ∧ 0 < start.cfg.numWin ∧ (1023 : Word).toNat < 2 ^ start.cfg.adcW :=
  ⟨start_inv, by decide, by decide⟩

theorem witness_CursorVisitsSlotsInOrder :
    start.Inv ∧ 0 < start.cfg.numWin ∧ (∀ e ∈ [PortInput.command 0x10000064], e.rst = false) ∧
      readings start.cfg 0 [.command 0x10000064] = [100] :=
  ⟨start_inv, by decide, by decide, by decide⟩

theorem witness_SampleAveragesTheLastReadings :
    par.Legal ∧ (∀ x ∈ [PortInput.command 0x10000000, .idle], x.rst = false) ∧
      (PortInput.command 0x10000190).reading? par 0 = some 400 := by decide

theorem witness_OldReadingsAreForgotten :
    start.Inv ∧ (∀ x ∈ List.replicate 3 (PortInput.command 0x10000000), x.rst = false) ∧
      (PortInput.command 0x10000190).reading? start.cfg 0 = some 400 ∧
      start.cfg.windowN ≤
        (readings start.cfg 0 (List.replicate 3 (.command 0x10000000))).length + 1 :=
  ⟨start_inv, by decide, by decide, by decide⟩

theorem witness_ConstantReadingsAverageToThemselves :
    start.Inv ∧ (∀ x ∈ List.replicate 3 (PortInput.command 0x10000064), x.rst = false) ∧
      (PortInput.command 0x10000064).reading? start.cfg 0 = some 100 ∧
      lastReadings start.cfg.windowN
        (readings start.cfg 0 (List.replicate 3 (.command 0x10000064)) ++ [100]) =
        List.replicate start.cfg.windowN 100 :=
  ⟨start_inv, by decide, by decide, by decide⟩

theorem witness_WindowsAreIndependent :
    (start.Inv ∧ (running 1).Inv ∧ start.cfg = (running 1).cfg ∧ 2 < start.cfg.numWin ∧
      start.window 2 = (running 1).window 2) ∧
    ∃ t, (∀ w raw, Instr.nop ≠ .sample w raw) ∧ exec .nop start = .next t :=
  ⟨⟨start_inv, running_inv (by decide), rfl, by decide, rfl⟩, _, (by simp), rfl⟩

theorem witness_OnlyPollWritesTheLatch :
    ∃ t, step (start.present (.command (encode (.poll .rising .high)))) = .next t ∧
      t.lastLevel ≠ start.lastLevel :=
  ⟨_, rfl, by decide⟩

theorem witness_EachTransitionIsReportedOnce :
    (∀ edge l, Instr.poll edge l ∈ [Instr.nop, .poll .rising .high] → l = .high) ∧
      start.lastLevel = .low :=
  ⟨by simp, rfl⟩

theorem witness_MapReadsTheSaturatedEntry :
    start.cfg.Legal ∧ ¬(tableRom start.cfg .freq).length ≤ (3 : Word).toNat ∧
      (tableRom start.cfg .freq).length ≤ (4 : Word).toNat := by decide

theorem witness_MapIsPure : ∃ t, Reaches 1 start t :=
  (some_step start).imp fun _ h => reaches_one.mpr h

theorem witness_SemitoneIsMonotone :
    start.cfg.Legal ∧ (7 : Word).toNat ≤ (8 : Word).toNat := by decide

theorem witness_PwmAndNopWords :
    (opField 0x40000000 = 4 ∧ selField 0x40000000 = 0 ∧ selField 0x41000000 ≠ 0) ∧
    (opField 0x50000000 = 5 ∧ selField 0x50000000 = 0 ∧ selField 0x51000000 ≠ 0) ∧
    (opField 0x60000000 = 6 ∧ selField 0x60000000 = 0 ∧ selField 0x61000000 ≠ 0) ∧
    (opField 0x00000000 = 0 ∧ selField 0x00000000 = 0 ∧ selField 0x01000000 ≠ 0) := by decide

theorem witness_PwmCommandsLeaveTheRestAlone :
    ∃ t u, exec (.pwmSet 5) start = .next t ∧ t.pwmCmp ≠ start.pwmCmp ∧
      exec .pwmEnable start = .next u ∧ u.pwmEn ≠ start.pwmEn :=
  ⟨_, _, rfl, by decide, rfl, by decide⟩

theorem witness_PwmCommandsAreIdempotent :
    ∃ i, i = Instr.pwmEnable ∨ i = .pwmDisable ∨ ∃ v, i = .pwmSet v := ⟨_, .inl rfl⟩

theorem witness_LastCompareWriteWins :
    (∀ e ∈ [PortInput.command 0x60000001, .command 0x60000002], e.rst = false) ∧
      [PortInput.command 0x60000001, .command 0x60000002].filterMap
        (PortInput.compare? start.cfg) = [1, 2] := by decide

theorem witness_ResponseRegistersFollowTheCommand :
    (start.present (.command 0x70000000)).nextInput.rst = false ∧
      (PortInput.command 0x70000000).isResult par ∧
      (PortInput.command 0x10000000).isResult par ∧ ¬(PortInput.command 0x40000000).isResult par := by
  refine ⟨rfl, ⟨rfl, rfl, ?_⟩, ⟨rfl, rfl, ?_⟩, fun h => ?_⟩
  · rw [show decode par (PortInput.command 0x70000000).cmd = .rejected .opcodeUnassigned by decide]
    trivial
  · rw [show decode par (PortInput.command 0x10000000).cmd = .instr (.sample 0 0) by decide]
    trivial
  · have := h.2.2
    rw [show decode par (PortInput.command 0x40000000).cmd = .instr .pwmEnable by decide] at this
    exact this

theorem witness_ResultIsHeldUntilTheNextResult :
    (PortInput.command 0x10000000).isResult start.cfg ∧
      ∀ x ∈ [PortInput.idle], x.rst = false ∧ ¬x.isResult start.cfg := by
  refine ⟨witness_ResponseRegistersFollowTheCommand.2.2.1, fun x hx => ?_⟩
  cases List.mem_singleton.mp hx
  exact ⟨rfl, fun h => nomatch h.2.1⟩

theorem witness_TimerStepsFromThePreEdgeState :
    (running 3).Inv ∧ (running 3).nextInput.rst = false ∧ (running 3).pwmEn = true ∧
      (running 3).timer.cnt = (running 3).cfg.pwmTop ∧
      (running 2).timer.cnt ≠ (running 2).cfg.pwmTop ∧ start.pwmEn = false :=
  ⟨running_inv (by decide), rfl, rfl, rfl, by decide, rfl⟩

theorem witness_PinIsHighBelowTheCompareValue :
    start.pwmEn = false ∧ (running 0).pwmEn = true ∧ (running 0).timer.active = 0 ∧
      { running 0 with timer := ⟨3, 4, false⟩ }.Inv ∧
      (running 0).cfg.pwmTop < (4 : Word).toNat :=
  ⟨rfl, rfl, rfl, { running_inv (k := 3) (by decide) with
    active_fits := by decide, irq_at_start := fun h => nomatch h }, by decide⟩

theorem witness_DisabledTimerIsStopped : start.pwmEn = false := rfl

theorem witness_InterruptMarksEachPeriodStart :
    ∃ t, step (running 3) = .next t ∧ (running 3).timer.cnt = (running 3).cfg.pwmTop :=
  (some_step _).imp fun _ h => ⟨h, rfl⟩

theorem idle_keepsEnabled {p : Params} : PortInput.idle.keepsEnabled p :=
  ⟨rfl, by simp [PortInput.instr?, PortInput.idle]⟩

theorem witness_PeriodsAfterEnabling :
    (start.Inv ∧ start.pwmEn = false ∧
      (PortInput.command 0x40000000).instr? start.cfg = some .pwmEnable ∧
      (List.replicate 4 PortInput.idle).length = start.cfg.pwmTop + 1 ∧
      ∀ x ∈ List.replicate 4 PortInput.idle, x.keepsEnabled start.cfg) ∧
    (running 0).Inv ∧ (running 0).pwmEn = true ∧ (running 0).timer.cnt = 0 :=
  ⟨⟨start_inv, rfl, by decide, rfl,
    fun _ hx => List.eq_of_mem_replicate hx ▸ idle_keepsEnabled⟩,
    running_inv (by decide), rfl, rfl⟩

theorem witness_CompareValueReachesTheNextPeriod :
    ((running 3).Inv ∧ (running 3).pwmEn = true ∧
      (PortInput.command 0x60000003).instr? (running 3).cfg = some (.pwmSet 3) ∧
      (running 3).timer.cnt = (running 3).cfg.pwmTop ∧
      (List.replicate 4 PortInput.idle).length = (running 3).cfg.pwmTop + 1) ∧
    ((running 2).Inv ∧ (running 2).timer.cnt ≠ (running 2).cfg.pwmTop ∧
      (List.replicate 1 PortInput.idle).length = (running 2).cfg.pwmTop - (running 2).timer.cnt) ∧
    (∀ x ∈ List.replicate 4 PortInput.idle,
      x.keepsEnabled par ∧ x.compare? par = none ∧ x.instr? par ≠ some .pwmEnable) ∧
    (start.Inv ∧ start.pwmEn = false ∧
      (PortInput.command 0x60000003).instr? start.cfg = some (.pwmSet 3) ∧
      (PortInput.command 0x40000000).instr? start.cfg = some .pwmEnable) :=
  ⟨⟨running_inv (by decide), rfl, by decide, rfl, rfl⟩,
    ⟨running_inv (by decide), by decide, rfl⟩,
    fun _ hx => List.eq_of_mem_replicate hx ▸ ⟨idle_keepsEnabled, by decide, by decide⟩,
    start_inv, rfl, by decide, by decide⟩

theorem witness_ZeroOrderHold :
    (running 0).Inv ∧ (running 0).pwmEn = true ∧
      (running 0).timer.active = (running 0).pwmCmp ∧ (running 0).timer.cnt = 0 ∧
      (List.replicate 4 PortInput.idle).length = (running 0).cfg.pwmTop + 1 ∧
      ∀ x ∈ List.replicate 4 PortInput.idle,
        x.keepsEnabled (running 0).cfg ∧ x.compare? (running 0).cfg = none :=
  ⟨running_inv (by decide), rfl, rfl, rfl, rfl,
    fun _ hx => List.eq_of_mem_replicate hx ▸ ⟨idle_keepsEnabled, by decide⟩⟩

theorem witness_BoundaryUsesPreEdgeValues :
    (running 3).pwmEn = true ∧ (running 3).timer.cnt = (running 3).cfg.pwmTop ∧
      (PortInput.command 0x60000003).instr? (running 3).cfg = some (.pwmSet 3) ∧
      (PortInput.command 0x50000000).instr? (running 3).cfg = some .pwmDisable := by decide

theorem witness_EnableWhileEnabledActsAsNop : (running 0).pwmEn = true := rfl

theorem witness_BlockIgnoresTheTimer : ∃ t, step start = .next t := some_step start

end Sys2Proof.Tests
end

section
/-! The bound on a sound window's sum in every instance, and its value in the default one (R10). -/

namespace Sys2Proof.Machine

/-- WINDOW_N readings of ADC_W bits bound the sum (R79, R86). -/
theorem Window.Ok.sum_le {p : Params} {v : Window} (h : Window.Ok p v) :
    v.sum ≤ p.windowN * (2 ^ p.adcW - 1) := by
  rw [h.sum_total, ← h.slots_length]
  exact total_le v.slots fun r hr => Nat.le_sub_one_of_lt (h.slots_fit r hr)

/-- The sum fits its register of SUM_W bits; a sound window has a slot, as its cursor names one. -/
theorem Window.Ok.sum_lt {p : Params} {v : Window} (h : Window.Ok p v) :
    v.sum < 2 ^ sumWidth p :=
  h.sum_le.trans_lt (sum_bound_lt p (Nat.one_le_of_lt h.cur_lt))

/-- Settles O16: 4 readings of at most 1023 bound the sum by 4092, and SUM_W is `10 + clog2(4)`. -/
theorem defaultSumWidth : Obligations.DefaultSumWidth := by
  intro p hadc hwin
  refine ⟨?_, fun v h => ⟨?_, h.sum_lt⟩⟩
  · rw [sumWidth, hadc, hwin]
    decide
  · calc v.sum ≤ p.windowN * (2 ^ p.adcW - 1) := h.sum_le
      _ = 4092 := by rw [hadc, hwin]; decide

end Sys2Proof.Machine
end

section
/-! The windows across a command, an edge and a run (R23, R24): which list of windows a command
leaves, and that every window stays sound. -/

namespace Sys2Proof

/-- A window of a legal block has a slot (R9). -/
theorem Params.Legal.one_le_windowN {p : Params} (h : p.Legal) : 1 ≤ p.windowN := h.2.1.1

namespace Machine

variable {p : Params} {s t : State}

/-! ### One window of a state -/

theorem State.window_of_getElem? {w : Nat} {v : Window} (h : s.wins[w]? = some v) :
    s.window w = v := by
  simp [State.window, List.getD_eq_getElem?_getD, h]

@[simp] theorem State.window_respond (s : State) (v : Word) (w : Nat) :
    (s.respond v).window w = s.window w := rfl

/-! ### What a command does to the windows -/

/-- A command leaves the list of windows as it is, or is a SAMPLE that pushes a reading into its
own. -/
theorem exec_wins_cases {i : Instr} (h : exec i s = .next t) :
    t.wins = s.wins ∨ ∃ w raw, i = .sample w raw ∧ w < s.cfg.numWin ∧
      t.wins = s.wins.set w ((s.window w).push s.cfg (rawOperand s.cfg raw)) := by
  obtain ⟨-, rfl⟩ | ⟨w, raw, rfl, hw, rfl⟩ | ⟨_, _, -, -, rfl⟩ | ⟨_, _, -, rfl⟩ | ⟨_, _, -, rfl⟩ |
    ⟨_, -, rfl⟩ | ⟨_, -, rfl⟩ := exec_cases h
  case inr.inl => exact .inr ⟨w, raw, rfl, hw, rfl⟩
  all_goals exact .inl rfl

/-- SAMPLE in terms of `State.window`: its answer and its new window are functions of the old one,
and every other window keeps its value (R23, R76). -/
theorem exec_sample_windows {w : Nat} (raw : Word) (hw : w < s.cfg.numWin)
    (hlen : s.wins.length = s.cfg.numWin) :
    ∃ t, exec (.sample w raw) s = .next t ∧
      t.rspData = ((s.window w).push s.cfg (rawOperand s.cfg raw)).average s.cfg ∧
      t.window w = (s.window w).push s.cfg (rawOperand s.cfg raw) ∧
      ∀ w', w' ≠ w → t.window w' = s.window w' := by
  refine ⟨_, exec_sample s raw hw, rfl, ?_, fun w' hne => ?_⟩
  · rw [State.window_respond, s.window_setWindow_self _ (hlen ▸ hw)]
  · rw [State.window_respond, s.window_setWindow_ne _ hne.symm]

/-- A command other than SAMPLE acts the same whatever the windows hold. -/
theorem exec_of_ne_sample_ignores_wins {i : Instr} (hi : ∀ w raw, i ≠ .sample w raw)
    (h : exec i s = .next t) (ws : List Window) :
    exec i { s with wins := ws } = .next { t with wins := ws } := by
  cases i with
  | sample w raw => exact absurd rfl (hi w raw)
  | _ => cases h; rfl

/-! ### Sound windows along a run -/

/-- The windows' part of the machine's invariant, for a block with parameters `p` (R22, R24). -/
structure State.WindowsOk (p : Params) (s : State) : Prop where
  cfg_eq      : s.cfg = p
  wins_length : s.wins.length = p.numWin
  wins_ok     : ∀ v ∈ s.wins, Window.Ok p v

/-- Only the parameters and the windows matter. -/
theorem State.WindowsOk.congr (h : s.WindowsOk p) (hc : t.cfg = s.cfg) (hw : t.wins = s.wins) :
    t.WindowsOk p :=
  ⟨hc.trans h.cfg_eq, hw ▸ h.wins_length, hw ▸ h.wins_ok⟩

theorem State.WindowsOk.window_ok (h : s.WindowsOk p) {w : Nat} (hw : w < p.numWin) :
    Window.Ok p (s.window w) := by
  rw [s.window_eq_getElem (h.wins_length ▸ hw)]
  exact h.wins_ok _ (List.getElem_mem _)

theorem resetOf_windowsOk (hN : 1 ≤ p.windowN) : (State.resetOf p).WindowsOk p where
  cfg_eq := rfl
  wins_length := by simp
  wins_ok _ hv := List.eq_of_mem_replicate hv ▸ Window.zero_ok hN

/-- The operand stage cuts a reading to ADC_W bits, so pushing it keeps a window sound (R57,
R84). -/
theorem Window.Ok.push_rawOperand {v : Window} (h : Window.Ok p v) (hN : 1 ≤ p.windowN)
    (raw : Word) : Window.Ok p (v.push p (rawOperand p raw)) :=
  h.push hN (lowBits_lt p.adcW raw)

/-- SAMPLE keeps a sound window sound, whatever the other windows hold (R84). -/
theorem exec_sample_keeps_window_ok {w : Nat} {raw : Word} {v v' : Window} (hN : 1 ≤ s.cfg.windowN)
    (hv : s.wins[w]? = some v) (hok : Window.Ok s.cfg v) (he : exec (.sample w raw) s = .next t)
    (hv' : t.wins[w]? = some v') : Window.Ok s.cfg v' := by
  obtain hw | ⟨w₁, raw₁, heq, -, hw⟩ := exec_wins_cases he
  · obtain rfl : v = v' := by simpa [hw, hv] using hv'
    exact hok
  · cases heq
    obtain ⟨hlt, -⟩ := List.getElem?_eq_some_iff.mp hv
    rw [hw, List.getElem?_set_self hlt, State.window_of_getElem? hv] at hv'
    cases hv'
    exact hok.push_rawOperand hN raw

theorem exec_keeps_windowsOk {i : Instr} (hN : 1 ≤ p.windowN) (h : s.WindowsOk p)
    (he : exec i s = .next t) : t.WindowsOk p := by
  obtain ⟨u, hu, hcfg, -⟩ := exec_next i s
  obtain rfl : t = u := by simpa [he] using hu
  obtain hw | ⟨w, raw, -, hlt, hw⟩ := exec_wins_cases he
  · exact h.congr hcfg hw
  · refine ⟨hcfg.trans h.cfg_eq, by simp [hw, h.wins_length], fun v hv => ?_⟩
    obtain hv | rfl := List.mem_or_eq_of_mem_set (hw ▸ hv)
    · exact h.wins_ok v hv
    · rw [h.cfg_eq] at hlt ⊢
      exact (h.window_ok hlt).push_rawOperand hN raw

theorem step_keeps_windowsOk (hN : 1 ≤ p.windowN) (h : s.WindowsOk p) (hs : step s = .next t) :
    t.WindowsOk p := by
  obtain ⟨-, rfl⟩ | ⟨-, rfl⟩ | ⟨_, -, rfl⟩ | ⟨i, u, -, he, rfl⟩ := step_cases hs
  case inl =>
    obtain rfl := h.cfg_eq
    exact (resetOf_windowsOk hN).congr rfl rfl
  case inr.inr.inr =>
    have hacc : s.accept.WindowsOk p := h.congr rfl rfl
    exact (exec_keeps_windowsOk hN hacc he).congr rfl rfl
  all_goals exact h.congr rfl rfl

/-- What every step keeps holds at the end of every run. -/
theorem reaches_keeps {P : State → Prop} (hstep : ∀ s t, P s → step s = .next t → P t) {n : Nat}
    (hP : P s) (hr : Reaches n s t) : P t := by
  induction n generalizing s with
  | zero => rwa [reaches_zero.mp hr]
  | succ n ih =>
    obtain ⟨u, hu, hrest⟩ := reaches_succ.mp hr
    exact ih (hstep s u hP hu) hrest

theorem reaches_windowsOk (hN : 1 ≤ p.windowN) {n : Nat} {es : List PortInput}
    (hr : Reaches n { State.resetOf p with inputs := es } t) : t.WindowsOk p := by
  have hstart : State.WindowsOk p { State.resetOf p with inputs := es } :=
    (resetOf_windowsOk hN).congr rfl rfl
  exact reaches_keeps (fun _ _ => step_keeps_windowsOk hN) hstart hr

end Machine

end Sys2Proof
end

section
/-! The response registers across a command (R29, R31): which commands answer, and what an answer
is. -/

namespace Sys2Proof

/-- SAMPLE, POLL and MAP answer a result; the other commands do not (R19). -/
def Instr.answers : Instr → Bool
  | .sample _ _ | .poll _ _ | .map _ _ => true
  | .nop | .pwmEnable | .pwmDisable | .pwmSet _ => false

namespace Machine

/-- A command whose operands are in range answers without an error, or keeps the data and error
bit. -/
theorem exec_response {s t : State} {i : Instr} (hi : i.wellFormed s.cfg = true)
    (h : exec i s = .next t) :
    (i.answers = true ∧ t.rspValid = true ∧ t.rspErr = false) ∨
    (i.answers = false ∧ t.rspValid = false ∧ t.rspData = s.rspData ∧ t.rspErr = s.rspErr) := by
  obtain ⟨rfl, rfl⟩ | ⟨_, _, rfl, -, rfl⟩ | ⟨w, raw, rfl, hw, -⟩ | ⟨_, _, rfl, rfl⟩ |
    ⟨_, _, rfl, rfl⟩ | ⟨b, rfl, rfl⟩ | ⟨_, rfl, rfl⟩ := exec_cases h
  · exact .inr ⟨rfl, rfl, rfl, rfl⟩
  · exact .inl ⟨rfl, rfl, rfl⟩
  · have hlt : w < s.cfg.numWin := by simp_all [Instr.wellFormed]
    exact absurd hlt (Nat.not_lt.mpr hw)
  · exact .inl ⟨rfl, rfl, rfl⟩
  · exact .inl ⟨rfl, rfl, rfl⟩
  · exact .inr ⟨by cases b <;> rfl, rfl, rfl, rfl⟩
  · exact .inr ⟨rfl, rfl, rfl, rfl⟩

/-! ### Which port inputs present a result command (R19) -/

section ByInput

variable {p : Params} {e : PortInput}

theorem PortInput.not_isResult_of_idle (hv : e.cmdValid = false) : ¬e.isResult p := by
  rintro ⟨-, h, -⟩
  simp [hv] at h

theorem PortInput.isResult_of_rejected {why : Reject} (hr : e.rst = false) (hv : e.cmdValid = true)
    (hd : decode p e.cmd = .rejected why) : e.isResult p :=
  ⟨hr, hv, by rw [hd]; trivial⟩

theorem PortInput.isResult_iff_answers {i : Instr} (hr : e.rst = false) (hv : e.cmdValid = true)
    (hd : decode p e.cmd = .instr i) : e.isResult p ↔ i.answers = true := by
  rw [PortInput.isResult, hd]
  cases i <;> simp [hr, hv, Instr.answers]

end ByInput

/-- What an edge fetches, by what the ports hold (R127). -/
theorem fetch_cases (s : State) :
    (s.nextInput.rst = true ∧ s.fetch = .reset) ∨
    (s.nextInput.rst = false ∧
      (s.nextInput.cmdValid = false ∧ s.fetch = .idle ∨
      s.nextInput.cmdValid = true ∧
        ((∃ why, decode s.cfg s.nextInput.cmd = .rejected why ∧ s.fetch = .invalid why) ∨
        ∃ i, decode s.cfg s.nextInput.cmd = .instr i ∧ s.fetch = .command i))) := by
  cases hr : s.nextInput.rst with
  | true => exact .inl ⟨rfl, fetch_of_rst hr⟩
  | false =>
    refine .inr ⟨rfl, ?_⟩
    cases hv : s.nextInput.cmdValid with
    | false => exact .inl ⟨rfl, fetch_of_idle hr hv⟩
    | true =>
      refine .inr ⟨rfl, ?_⟩
      cases hd : decode s.cfg s.nextInput.cmd with
      | rejected why => exact .inl ⟨why, rfl, fetch_of_invalid hr hv hd⟩
      | instr i => exact .inr ⟨i, rfl, fetch_of_command hr hv hd⟩

end Machine

end Sys2Proof
end

section
/-! The statements about the state of the block: its reset values, its windows and its response
registers. -/

namespace Sys2Proof.Machine

/-- Settles O22: a SAMPLE pushes a reading of ADC_W bits, which keeps its window sound; the windows
are sound at reset, every step keeps them so, and hence so does every run. -/
theorem sampleKeepsWindowSound : Obligations.SampleKeepsWindowSound := by
  refine ⟨fun s t w raw v v' hlegal hv hok hexec hv' => ?_, fun p hlegal v hv => ?_,
    fun p n es t hlegal hrun => ?_⟩
  · have hok' := exec_sample_keeps_window_ok hlegal.one_le_windowN hv hok hexec hv'
    exact ⟨hok'.sum_total, hok'.cur_lt, hok'⟩
  · have hok := (resetOf_windowsOk hlegal.one_le_windowN).wins_ok v hv
    exact ⟨hok.sum_total, hok.cur_lt⟩
  · have hend := reaches_windowsOk hlegal.one_le_windowN hrun
    refine ⟨hend.wins_length, fun v hv => ?_⟩
    have hok := hend.wins_ok v hv
    exact ⟨hok.sum_total, hok.cur_lt⟩

/-- Settles O28: SAMPLE's answer and new window are functions of its old window, and no other
command reads or writes the list of windows. -/
theorem windowsAreIndependent : Obligations.WindowsAreIndependent := by
  refine ⟨fun s s' w raw hs hs' hcfg hw hwin => ?_, fun i s t ws hi hexec => ⟨?_, ?_⟩⟩
  · obtain ⟨t, ht, hdata, hself, hother⟩ := exec_sample_windows raw hw hs.wins_length
    obtain ⟨t', ht', hdata', hself', hother'⟩ :=
      exec_sample_windows raw (hcfg ▸ hw) hs'.wins_length
    rw [hcfg, hwin] at hdata hself
    exact ⟨t, t', ht, ht', hdata.trans hdata'.symm, hself.trans hself'.symm,
      fun w' hne => ⟨hother w' hne, hother' w' hne⟩⟩
  · obtain hw | ⟨w, raw, rfl, -, -⟩ := exec_wins_cases hexec
    · exact hw
    · exact absurd rfl (hi w raw)
  · exact exec_of_ne_sample_ignores_wins hi hexec ws

/-- Settles O44, by what the edge fetches: nothing, an invalid word, or a command that answers or
does not. -/
theorem responseRegistersFollowTheCommand : Obligations.ResponseRegistersFollowTheCommand := by
  refine ⟨fun p => ⟨rfl, rfl⟩, fun s t hrst hstep => ?_⟩
  obtain ⟨hr, -⟩ | ⟨-, ⟨hv, hf⟩ | ⟨hv, ⟨why, hd, hf⟩ | ⟨i, hd, hf⟩⟩⟩ := fetch_cases s
  · simp [hrst] at hr
  · obtain rfl : _ = t := by simpa [step_of_idle hf] using hstep
    simp [PortInput.not_isResult_of_idle hv]
  · obtain rfl : _ = t := by simpa [step_of_invalid hf] using hstep
    simp [PortInput.isResult_of_rejected hrst hv hd, hd]
  · obtain ⟨u, he, -⟩ := exec_next i s.accept
    obtain rfl : _ = t := by simpa [step_of_command hf he] using hstep
    have hres := PortInput.isResult_iff_answers hrst hv hd
    obtain ⟨ha, hvalid, herr⟩ | ⟨ha, hvalid, hdata, herr⟩ :=
      exec_response (s := s.accept) (decode_wellFormed hd) he
    · simp [hres, ha, hvalid, herr, hd]
    · simp [hres, ha, hvalid, hdata, herr]

/-- Settles O12: every element of ResetState is written out in the model (R37). -/
theorem resetStateValues : Obligations.ResetStateValues := by
  intro p
  refine ⟨fun w hw => ⟨Window.zero p, by simp [hw], rfl, rfl, ?_, fun k hk => ?_⟩, by simp,
    rfl, rfl, rfl, rfl, rfl, rfl⟩
  · simp [Window.zero]
  · simp [Window.zero, hk]

end Sys2Proof.Machine
end

section
/-! The decoder by validity and by significant bits (R65, R67, R68): which words it accepts, and which
bits of a word it reads. -/

namespace Sys2Proof.Machine

variable {p : Params} {w w' : Cmd}

/-- The opcode map of R62: seven assigned opcodes, and those from 7 on. -/
theorem opcode_cases (op : BitVec 4) :
    op = 0 ∨ op = 1 ∨ op = 2 ∨ op = 3 ∨ op = 4 ∨ op = 5 ∨ op = 6 ∨ 7 ≤ op.toNat := by
  revert op; decide

/-! ### Valid words are those that decode to a command -/

theorem validWord_of_decode {i : Instr} (h : decode p w = .instr i) : validWord p w := by
  obtain ⟨hop, hsel, -⟩ | ⟨hop, hsel, -⟩ | ⟨hop, hsel, -⟩ | ⟨hop, t, ht, -⟩ | ⟨hop, hsel, -⟩ |
    ⟨hop, hsel, -⟩ | ⟨hop, hsel, -⟩ := decode_cases h
  case inr.inr.inl => simpa [validWord, hop] using (selHigh_eq_zero_iff _).mpr hsel
  case inr.inr.inr.inl =>
    simpa [validWord, hop] using TableId.number_of_ofNumber ht ▸ t.number_le
  all_goals simpa [validWord, hop] using hsel

theorem exists_decode_of_validWord (h : validWord p w) : ∃ i, decode p w = .instr i := by
  obtain hop | hop | hop | hop | hop | hop | hop | hop := opcode_cases (opField w) <;>
    unfold validWord at h
  case inr.inr.inr.inr.inr.inr.inr =>
    split at h
    case h_8 => exact h.elim
    all_goals omega
  all_goals rw [hop] at h
  · exact ⟨_, (decode_nop hop).trans (if_pos h)⟩
  · exact ⟨_, (decode_sample hop).trans (if_pos h)⟩
  · exact ⟨_, (decode_poll hop).trans (if_pos h)⟩
  · obtain ⟨t, ht⟩ := Option.isSome_iff_exists.mp ((TableId.ofNumber_isSome _).mpr h)
    exact ⟨.map t (dataField w), by rw [decode_map hop, decodeMap, ht]⟩
  · exact ⟨_, (decode_pwmEnable hop).trans (if_pos h)⟩
  · exact ⟨_, (decode_pwmDisable hop).trans (if_pos h)⟩
  · exact ⟨_, (decode_pwmSet hop).trans (if_pos h)⟩

theorem exists_reject_of_not_validWord (h : ¬validWord p w) : ∃ why, decode p w = .rejected why := by
  cases hd : decode p w with
  | rejected why => exact ⟨why, rfl⟩
  | instr i => exact absurd (validWord_of_decode hd) h

/-! ### The bits the decoder reads -/

/-- The decoder reads OP, SEL and the operand bits of DATA that OP's command has: ADC_W bits, bit 0,
all of it, or PWM_W bits (R67). -/
theorem decode_congr (hop : opField w = opField w') (hsel : selField w = selField w')
    (hsample : opField w = 1 → lowBits p.adcW (dataField w) = lowBits p.adcW (dataField w'))
    (hpoll : opField w = 2 → (dataField w).getLsbD 0 = (dataField w').getLsbD 0)
    (hmap : opField w = 3 → dataField w = dataField w')
    (hset : opField w = 6 → lowBits p.pwmW (dataField w) = lowBits p.pwmW (dataField w')) :
    decode p w = decode p w' := by
  obtain h | h | h | h | h | h | h | h := opcode_cases (opField w) <;> have h' := hop ▸ h
  · rw [decode_nop h, decode_nop h', hsel]
  · rw [decode_sample h, decode_sample h', decodeSample, decodeSample, hsel, hsample h]
  · rw [decode_poll h, decode_poll h', decodePoll, decodePoll, hsel, hpoll h]
  · rw [decode_map h, decode_map h', hsel, hmap h]
  · rw [decode_pwmEnable h, decode_pwmEnable h', hsel]
  · rw [decode_pwmDisable h, decode_pwmDisable h', hsel]
  · rw [decode_pwmSet h, decode_pwmSet h', decodePwmSet, decodePwmSet, hsel, hset h]
  · rw [decode_unassigned h, decode_unassigned h']

/-! ### The step that is presented a word (R127) -/

variable {s : State}

theorem step_present_rejected {why : Reject} (h : decode s.cfg w = .rejected why) :
    step (s.present (.command w)) =
      .next (s.invalid.withTimer (timerStep s.cfg false s.pwmEn s.pwmCmp s.timer)) :=
  step_of_invalid (fetch_of_invalid (s := s.present (.command w)) rfl rfl h)

theorem step_present_instr {i : Instr} {t : State} (h : decode s.cfg w = .instr i)
    (he : exec i s = .next t) :
    step (s.present (.command w)) =
      .next (t.withTimer (timerStep s.cfg false s.pwmEn s.pwmCmp s.timer)) :=
  step_of_command (fetch_of_command (s := s.present (.command w)) rfl rfl h) he

/-- An edge sees of a presented word only what it decodes to. -/
theorem step_present_congr (h : decode s.cfg w = decode s.cfg w') :
    step (s.present (.command w)) = step (s.present (.command w')) := by
  cases hd : decode s.cfg w' with
  | rejected why => rw [step_present_rejected hd, step_present_rejected (h.trans hd)]
  | instr i =>
    obtain ⟨t, he, -⟩ := exec_next i s
    rw [step_present_instr hd he, step_present_instr (h.trans hd) he]

end Sys2Proof.Machine
end

section
/-! The statements about the encoding: what each word decodes to, which of its bits count, and the
spelling of numbers. -/

namespace Sys2Proof.Machine

/-- Settles O3: the words the decoder accepts are the valid ones (R65), and `decode_cases` reads their
operands from the fields. -/
theorem everyWordDecodesByItsFields : Obligations.EveryWordDecodesByItsFields := by
  refine fun p w => ⟨exists_reject_of_not_validWord, fun hvalid => ?_⟩
  obtain ⟨i, hd⟩ := exists_decode_of_validWord hvalid
  obtain ⟨hop, -, rfl⟩ | ⟨hop, -, rfl⟩ | ⟨hop, -, rfl⟩ | ⟨hop, t, ht, rfl⟩ | ⟨hop, -, rfl⟩ |
    ⟨hop, -, rfl⟩ | ⟨hop, -, rfl⟩ := decode_cases hd
  · exact .inl ⟨hop, hd⟩
  · exact .inr (.inl ⟨hop, hd⟩)
  · exact .inr (.inr (.inl ⟨hop, hd⟩))
  · exact .inr (.inr (.inr (.inl ⟨hop, t, TableId.number_of_ofNumber ht, hd⟩)))
  · exact .inr (.inr (.inr (.inr (.inl ⟨hop, hd⟩))))
  · exact .inr (.inr (.inr (.inr (.inr (.inl ⟨hop, hd⟩)))))
  · exact .inr (.inr (.inr (.inr (.inr (.inr ⟨hop, hd⟩)))))

/-- Settles O4: both words decode alike, and the step sees nothing else of them. -/
theorem ignoredBitsHaveNoEffect : Obligations.IgnoredBitsHaveNoEffect :=
  fun _ _ _ hop hsel hsample hpoll hmap hset =>
    step_present_congr (decode_congr hop hsel hsample hpoll hmap hset)

/-- Settles O10: a word that is not valid is rejected, and a rejected word performs `invalid()` of
R126. -/
theorem invalidCommandOnlyResponds : Obligations.InvalidCommandOnlyResponds := by
  intro s w hw
  obtain ⟨why, hd⟩ := exists_reject_of_not_validWord hw
  exact step_present_rejected hd

/-- Settles O56: the digits of a number in either base read back as the number. -/
theorem literalsSpellTheirValue : Obligations.LiteralsSpellTheirValue := fun v =>
  ⟨parseLiteral_decimal Nat.toDigits_ne_nil (parseDigits_toDigits (by decide) (by decide) v),
    parseLiteral_hexadecimal Nat.toDigits_ne_nil
      (parseDigits_toDigits (by decide) (by decide) v)⟩

/-- Settles O5: the lines and words of R73 are closed, so the assembler and the decoder compute
them. -/
theorem encodingExamples : Obligations.EncodingExamples := by
  unfold Obligations.EncodingExamples
  decide

end Sys2Proof.Machine
end

section
/-! A window as the queue of its last WINDOW_N readings (R78, R82): what one reading and a sequence
of readings leave in it, and the average it answers. -/

namespace Sys2Proof.Machine

namespace Window

variable {p : Params} {v : Window}

/-! ### What a window holds -/

/-- The slots from the cursor on, so oldest reading first (R78). -/
def held (v : Window) : List Nat := (v.slots.rotate v.cur).map BitVec.toNat

theorem sum_held (v : Window) : v.held.sum = v.total :=
  ((v.slots.rotate_perm v.cur).map _).sum_eq

theorem Ok.length_held (h : Ok p v) : v.held.length = p.windowN := by
  simp [held, h.slots_length]

theorem held_zero (p : Params) : (Window.zero p).held = List.replicate p.windowN 0 := by
  simp [held, Window.zero]

/-- A reading overwrites the oldest one and becomes the newest (R78, R85). -/
theorem Ok.held_push (h : Ok p v) (raw : Word) :
    (v.push p raw).held = v.held.tail ++ [raw.toNat] := by
  obtain ⟨as, x, bs, hslots, hlen⟩ : ∃ as x bs, v.slots = as ++ x :: bs ∧ as.length = v.cur := by
    have hc : v.cur < v.slots.length := h.slots_length ▸ h.cur_lt
    exact ⟨v.slots.take v.cur, v.slots[v.cur], v.slots.drop (v.cur + 1),
      by simp, List.length_take_of_le hc.le⟩
  have hset : v.slots.set v.cur raw = (as ++ [raw]) ++ bs := by simp [hslots, ← hlen]
  have hN : (v.slots.set v.cur raw).length = p.windowN := by simp [h.slots_length]
  have hnew : (v.push p raw).slots.rotate (v.push p raw).cur = bs ++ (as ++ [raw]) := by
    have hcur : v.cur + 1 = (as ++ [raw]).length := by simp [hlen]
    rw [Window.push, ← hN, List.rotate_mod, hset, hcur, List.rotate_append_length_eq]
  have hold : v.slots.rotate v.cur = x :: bs ++ as := by
    rw [hslots, ← hlen, List.rotate_append_length_eq]
  simp [held, hnew, hold]

/-! ### The average -/

theorem Ok.average_le (h : Ok p v) : v.sum / p.windowN ≤ 2 ^ p.adcW - 1 :=
  Nat.div_le_of_le_mul h.sum_le

/-- The average of a legal block fits the 16 bits of `rsp_data` (R86). -/
theorem Ok.average_lt (h : Ok p v) (hp : p.Legal) : v.sum / p.windowN < 2 ^ 16 := by
  obtain ⟨⟨-, hadc⟩, -⟩ := hp
  calc v.sum / p.windowN ≤ 2 ^ p.adcW - 1 := h.average_le
    _ < 2 ^ p.adcW := Nat.sub_one_lt (Nat.two_pow_pos _).ne'
    _ ≤ 2 ^ 16 := Nat.pow_le_pow_right (by decide) hadc

theorem Ok.average_toNat (h : Ok p v) (hp : p.Legal) :
    (v.average p).toNat = v.sum / p.windowN := by
  rw [Window.average, BitVec.toNat_ofNat, Nat.mod_eq_of_lt (h.average_lt hp)]

/-! ### A sequence of readings -/

/-- A window after these readings, in this order. -/
def pushAll (p : Params) (v : Window) : List Nat → Window
  | [] => v
  | r :: rs => pushAll p (v.push p (BitVec.ofNat 16 r)) rs

theorem pushAll_append (v : Window) (rs qs : List Nat) :
    pushAll p v (rs ++ qs) = pushAll p (pushAll p v rs) qs := by
  induction rs generalizing v with
  | nil => rfl
  | cons r rs ih => exact ih _

/-- One step of the cursor for each reading (R78). -/
theorem pushAll_cur (hcur : v.cur < p.windowN) (rs : List Nat) :
    (pushAll p v rs).cur = (v.cur + rs.length) % p.windowN := by
  induction rs generalizing v with
  | nil => exact (Nat.mod_eq_of_lt hcur).symm
  | cons r rs ih =>
    have hpush : (v.push p (BitVec.ofNat 16 r)).cur < p.windowN :=
      Nat.mod_lt _ (Nat.zero_lt_of_lt hcur)
    rw [pushAll, ih hpush, Window.push, Nat.mod_add_mod, List.length_cons, Nat.add_right_comm,
      Nat.add_assoc]

/-- A reading of at most ADC_W bits is a word, unchanged. -/
theorem toNat_ofNat_reading (hp : p.Legal) {r : Nat} (hr : r < 2 ^ p.adcW) :
    (BitVec.ofNat 16 r).toNat = r := by
  obtain ⟨⟨-, hadc⟩, -⟩ := hp
  rw [BitVec.toNat_ofNat,
    Nat.mod_eq_of_lt (hr.trans_le (Nat.pow_le_pow_right (by decide) hadc))]

/-- After a sequence of readings a sound window is sound, and has forgotten one old reading for each
new one. -/
theorem Ok.pushAll_held (h : Ok p v) (hp : p.Legal) {rs : List Nat}
    (hrs : ∀ r ∈ rs, r < 2 ^ p.adcW) :
    Ok p (pushAll p v rs) ∧ (pushAll p v rs).held = (v.held ++ rs).drop rs.length := by
  induction rs generalizing v with
  | nil => simpa [pushAll] using h
  | cons r rs ih =>
    obtain ⟨hr, hrs⟩ := List.forall_mem_cons.mp hrs
    have hword := toNat_ofNat_reading hp hr
    have hpush : Ok p (v.push p (BitVec.ofNat 16 r)) := h.push hp.one_le_windowN (by rwa [hword])
    obtain ⟨hok, hheld⟩ := ih hpush hrs
    refine ⟨hok, hheld.trans ?_⟩
    have hne : v.held ≠ [] := List.ne_nil_of_length_pos (h.length_held ▸ hp.one_le_windowN)
    obtain ⟨x, xs, hx⟩ := List.exists_cons_of_ne_nil hne
    simp [h.held_push, hword, hx]

/-- The sum after a sequence of readings: that of the last WINDOW_N of those held and those new. -/
theorem Ok.pushAll_sum (h : Ok p v) (hp : p.Legal) {rs : List Nat}
    (hrs : ∀ r ∈ rs, r < 2 ^ p.adcW) :
    (pushAll p v rs).sum = (lastReadings p.windowN (v.held ++ rs)).sum := by
  obtain ⟨hok, hheld⟩ := h.pushAll_held hp hrs
  have hlast : lastReadings p.windowN (v.held ++ rs) = (pushAll p v rs).held.reverse := by
    rw [lastReadings, List.take_reverse, hheld, List.length_append, h.length_held,
      Nat.add_sub_cancel_left]
  rw [hlast, List.sum_reverse, sum_held, hok.sum_total]

end Window

/-! ### The last readings of a list -/

/-- Once WINDOW_N readings have come, older ones do not count (R85). -/
theorem lastReadings_append_of_le {n : Nat} (old : List Nat) {rs : List Nat} (h : n ≤ rs.length) :
    lastReadings n (old ++ rs) = lastReadings n rs := by
  rw [lastReadings, List.reverse_append, List.take_append_of_le_length (by simpa using h),
    lastReadings]

/-- Zeros before the first reading do not add to the total (R82). -/
theorem sum_lastReadings_zeros (n m : Nat) (rs : List Nat) :
    (lastReadings n (List.replicate m 0 ++ rs)).sum = (lastReadings n rs).sum := by
  simp [lastReadings, List.take_append, List.take_replicate]

end Sys2Proof.Machine
end

section
/-! A window along a run without a reset: each edge pushes the reading its input adds, if any. -/

namespace Sys2Proof.Machine

variable {p : Params} {s t : State} {w : Nat} {e : PortInput}

/-! ### The reading of a port input -/

theorem reading?_eq_some_iff {r : Nat} :
    e.reading? p w = some r ↔ ∃ raw, e.instr? p = some (.sample w raw) ∧ raw.toNat = r := by
  unfold PortInput.reading?
  split
  · next w' raw hi => simp [hi, and_assoc]
  · next hi => exact iff_of_false (nomatch ·) fun ⟨raw, h, _⟩ => hi w raw h

theorem instr?_wellFormed {i : Instr} (h : e.instr? p = some i) : i.wellFormed p = true := by
  unfold PortInput.instr? at h
  split at h
  · split at h <;> cases h
    exact decode_wellFormed ‹_›
  · cases h

/-- A reading comes to a window of the block and has ADC_W bits. -/
theorem reading?_bounds {r : Nat} (h : e.reading? p w = some r) :
    w < p.numWin ∧ r < 2 ^ p.adcW := by
  obtain ⟨raw, hi, rfl⟩ := reading?_eq_some_iff.mp h
  simpa [Instr.wellFormed] using instr?_wellFormed hi

theorem readings_lt {es : List PortInput} : ∀ r ∈ readings p w es, r < 2 ^ p.adcW := by
  intro r hr
  obtain ⟨e, -, he⟩ := List.mem_filterMap.mp hr
  exact (reading?_bounds he).2

theorem readings_cons (e : PortInput) (es : List PortInput) :
    readings p w (e :: es) = readings p w [e] ++ readings p w es :=
  List.filterMap_append (l := [e])

/-- An edge that fetches no SAMPLE of `w` brings no reading of `w`. -/
theorem readings_singleton_of_no_sample (h : ∀ raw, e.instr? p ≠ some (.sample w raw)) :
    readings p w [e] = [] := by
  refine List.filterMap_cons_none (Option.eq_none_iff_forall_ne_some.mpr fun r hr => ?_)
  obtain ⟨raw, hi, -⟩ := reading?_eq_some_iff.mp hr
  exact h raw hi

theorem readings_singleton_of_reading {r : Nat} (h : e.reading? p w = some r) :
    readings p w [e] = [r] :=
  List.filterMap_cons_some h

/-! ### One edge -/

theorem State.Inv.windowsOk (h : s.Inv) : s.WindowsOk s.cfg := ⟨rfl, h.wins_length, h.wins_ok⟩

theorem State.window_congr (hc : t.cfg = s.cfg) (hw : t.wins = s.wins) (w : Nat) :
    t.window w = s.window w := by
  rw [State.window, State.window, hc, hw]

/-- What an edge that accepts a SAMPLE does to the windows, and what it answers (R76). -/
theorem step_sample {raw : Word} (h : s.WindowsOk p)
    (hi : s.nextInput.instr? p = some (.sample w raw)) :
    ∃ t, step s = .next t ∧ t.rspValid = true ∧ t.rspErr = false ∧
      t.rspData = ((s.window w).push p raw).average p ∧ t.window w = (s.window w).push p raw ∧
      ∀ w', w' ≠ w → t.window w' = s.window w' := by
  obtain rfl := h.cfg_eq
  have hwf := instr?_wellFormed hi
  obtain ⟨hw, hraw⟩ : w < s.cfg.numWin ∧ raw.toNat < 2 ^ s.cfg.adcW := by
    simpa [Instr.wellFormed] using hwf
  have hop : rawOperand s.cfg raw = raw := lowBits_eq_self hraw
  obtain ⟨u, hu, hdata, hself, hother⟩ := exec_sample_windows (s := s.accept) raw hw h.wins_length
  obtain ⟨hvalid, herr⟩ : u.rspValid = true ∧ u.rspErr = false := by
    obtain ⟨-, hvalid, herr⟩ | ⟨ha, -⟩ := exec_response (s := s.accept) hwf hu
    · exact ⟨hvalid, herr⟩
    · cases ha
  simp only [State.accept_cfg, hop] at hdata hself
  exact ⟨_, step_of_command (instr?_eq_some_iff.mp hi) hu, hvalid, herr, hdata, hself, hother⟩

theorem fetch_ne_reset (hr : s.nextInput.rst = false) : s.fetch ≠ .reset := by
  obtain ⟨h, -⟩ | ⟨-, ⟨-, h⟩ | ⟨-, ⟨_, -, h⟩ | ⟨_, -, h⟩⟩⟩ := fetch_cases s
  · simp [hr] at h
  all_goals simp [h]

/-- An edge without a reset that accepts no SAMPLE keeps every window (R23). -/
theorem step_keeps_windows (hr : s.nextInput.rst = false)
    (hi : ∀ w raw, s.nextInput.instr? s.cfg ≠ some (.sample w raw)) (hs : step s = .next t) :
    t.cfg = s.cfg ∧ t.wins = s.wins := by
  obtain ⟨u, hu, hcfg, -⟩ := step_next s
  obtain rfl : u = t := by simpa [hu] using hs
  refine ⟨hcfg, ?_⟩
  obtain ⟨hf, -⟩ | ⟨-, rfl⟩ | ⟨_, -, rfl⟩ | ⟨i, v, hf, he, rfl⟩ := step_cases hs
  · exact absurd hf (fetch_ne_reset hr)
  · rfl
  · rfl
  · obtain hw | ⟨w, raw, rfl, -⟩ := exec_wins_cases he
    · exact hw
    · exact absurd (instr?_eq_some_iff.mpr hf) (hi w raw)

/-- An edge without a reset pushes the reading its input adds, if any. -/
theorem step_window (h : s.WindowsOk p) (hr : s.nextInput.rst = false) (hs : step s = .next t)
    (w : Nat) : t.window w = (s.window w).pushAll p (readings p w [s.nextInput]) := by
  obtain rfl := h.cfg_eq
  by_cases hi : ∃ w' raw, s.nextInput.instr? s.cfg = some (.sample w' raw)
  · obtain ⟨w', raw, hi⟩ := hi
    obtain ⟨u, hu, -, -, -, hself, hother⟩ := step_sample h hi
    obtain rfl : u = t := by simpa [hu] using hs
    by_cases hw : w = w'
    · subst hw
      rw [readings_singleton_of_reading (reading?_eq_some_iff.mpr ⟨raw, hi, rfl⟩), hself]
      simp [Window.pushAll]
    · rw [hother w hw, readings_singleton_of_no_sample fun raw' h' => hw (by simp_all)]
      rfl
  · have hno : ∀ w' raw, s.nextInput.instr? s.cfg ≠ some (.sample w' raw) :=
      fun w' raw h' => hi ⟨w', raw, h'⟩
    obtain ⟨hcfg, hwins⟩ := step_keeps_windows hr hno hs
    rw [readings_singleton_of_no_sample (hno w), State.window_congr hcfg hwins]
    rfl

/-! ### A run -/

/-- Over a stream without a reset each window takes its own readings, in order. -/
theorem run_window {es rest : List PortInput} (h : s.WindowsOk p) (hN : 1 ≤ p.windowN)
    (hes : ∀ e ∈ es, e.rst = false) (hin : s.inputs = es ++ rest) :
    ∃ t, Reaches es.length s t ∧ t.inputs = rest ∧ t.WindowsOk p ∧
      ∀ w, t.window w = (s.window w).pushAll p (readings p w es) := by
  induction es generalizing s with
  | nil => exact ⟨s, reaches_zero.mpr rfl, hin, h, fun _ => rfl⟩
  | cons e es ih =>
    obtain ⟨he, hes⟩ := List.forall_mem_cons.mp hes
    have hnext : s.nextInput = e := by simp [State.nextInput, hin]
    obtain ⟨u, hu, -, hinu, -⟩ := step_next s
    obtain ⟨t, ht, hint, hok, hwin⟩ :=
      ih (step_keeps_windowsOk hN h hu) hes (by simp [hinu, hin])
    refine ⟨t, reaches_succ.mpr ⟨u, hu, ht⟩, hint, hok, fun w => ?_⟩
    rw [hwin, step_window h (hnext ▸ he) hu, hnext, ← Window.pushAll_append, ← readings_cons]

/-- After a stream without a reset, a reading is answered with the average of the last WINDOW_N
readings, those the window held at the start included. -/
theorem run_answers_average {es rest : List PortInput} {r : Nat} (h : s.WindowsOk p)
    (hp : p.Legal) (hes : ∀ x ∈ es, x.rst = false) (he : e.reading? p w = some r)
    (hin : s.inputs = es ++ e :: rest) :
    ∃ t, Reaches (es.length + 1) s t ∧ t.rspValid = true ∧ t.rspErr = false ∧
      t.rspData.toNat =
        (lastReadings p.windowN ((s.window w).held ++ (readings p w es ++ [r]))).sum /
          p.windowN := by
  obtain ⟨u, hu, hinu, hok, hwin⟩ := run_window h hp.one_le_windowN hes hin
  obtain ⟨hw, hr⟩ := reading?_bounds he
  have hnext : u.nextInput = e := by simp [State.nextInput, hinu]
  obtain ⟨raw, hi, rfl⟩ := reading?_eq_some_iff.mp he
  obtain ⟨t, ht, hvalid, herr, hdata, -⟩ := step_sample hok (hnext ▸ hi)
  refine ⟨t, reaches_add.mpr ⟨u, hu, reaches_one.mpr ht⟩, hvalid, herr, ?_⟩
  have hrs : ∀ x ∈ readings p w es ++ [raw.toNat], x < 2 ^ p.adcW := by
    simpa [or_imp, forall_and] using ⟨readings_lt, hr⟩
  have hpush : (u.window w).push p raw =
      (s.window w).pushAll p (readings p w es ++ [raw.toNat]) := by
    simp [Window.pushAll_append, ← hwin, Window.pushAll]
  have hsound := h.window_ok hw
  rw [hdata, hpush, (hsound.pushAll_held hp hrs).1.average_toNat hp, hsound.pushAll_sum hp hrs]

end Sys2Proof.Machine
end

section
/-! SAMPLE in a sound state: its window by list position, its operand as it is, its sum exact and
modular alike (R76, R79). -/

namespace Sys2Proof.Machine

variable {s : State} {w : Nat}

/-- SAMPLE of a reading of ADC_W bits: the operand stage leaves the reading as it is. -/
theorem exec_sample_of_fits {raw : Word} (hw : w < s.cfg.numWin)
    (hraw : raw.toNat < 2 ^ s.cfg.adcW) :
    exec (.sample w raw) s = .next ((s.setWindow w ((s.window w).push s.cfg raw)).respond
      (((s.window w).push s.cfg raw).average s.cfg)) := by
  rw [exec_sample s raw hw, rawOperand, lowBits_eq_self hraw]

theorem State.Inv.getElem?_wins (h : s.Inv) (hw : w < s.cfg.numWin) :
    s.wins[w]? = some (s.window w) := by
  have hlt : w < s.wins.length := h.wins_length ▸ hw
  rw [s.window_eq_getElem hlt, List.getElem?_eq_getElem hlt]

theorem Window.Ok.getElem?_cur {p : Params} {v : Window} (h : Window.Ok p v) :
    v.slots[v.cur]? = some v.evicted := by
  have hlt : v.cur < v.slots.length := h.slots_length ▸ h.cur_lt
  simp [Window.evicted, hlt]

/-- A sum that is exact below `m` is the same modulo `m`, in either order of the addition and the
subtraction (R79). -/
theorem exact_eq_mod {m sum raw evicted : Nat} (he : evicted ≤ sum) (hm : evicted ≤ m)
    (hlt : sum + raw - evicted < m) :
    sum + raw - evicted = ((sum + raw) % m + (m - evicted)) % m ∧
      sum + raw - evicted = ((sum + (m - evicted)) % m + raw) % m := by
  have h1 : sum + raw + (m - evicted) = sum + raw - evicted + m := by omega
  have h2 : sum + (m - evicted) + raw = sum + raw - evicted + m := by omega
  simp [Nat.mod_add_mod, h1, h2, Nat.mod_eq_of_lt hlt]

end Sys2Proof.Machine
end

section
/-! The statements about SAMPLE: one command, and the results along a run. -/

namespace Sys2Proof.Machine

/-! ### One SAMPLE in a sound state -/

/-- Settles O18: the window at its list position is `State.window`, and the updated sum is exact. -/
theorem sampleUpdatesWindowAndAnswersAverage :
    Obligations.SampleUpdatesWindowAndAnswersAverage := by
  intro s w raw hinv hw hraw
  have hok := hinv.windowsOk.window_ok hw
  have hN := hinv.cfg_legal.one_le_windowN
  have hsum := hok.push_sum hN hraw
  refine ⟨s.window w, (s.window w).evicted, hinv.getElem?_wins hw, hok.getElem?_cur,
    hok.evicted_le_sum.trans (Nat.le_add_right _ _), ?_, ?_⟩
  · rw [← hsum]
    exact (hok.push hN hraw).average_lt hinv.cfg_legal
  · rw [exec_sample_of_fits hw hraw, ← hsum]
    rfl

/-- Settles O19: the new sum is the total of a sound window, and an exact sum is the modular one. -/
theorem sampleSumNeverWraps : Obligations.SampleSumNeverWraps := by
  intro s t w raw v v' evicted hinv hraw hw hv hev hexec hv'
  have hok : Window.Ok s.cfg v := hinv.wins_ok v (List.mem_of_getElem? hv)
  have hN := hinv.cfg_legal.one_le_windowN
  obtain rfl : v.evicted = evicted := Option.some.inj (hok.getElem?_cur.symm.trans hev)
  rw [exec_sample_of_fits hw hraw, State.window_of_getElem? hv] at hexec
  obtain rfl : v.push s.cfg raw = v' := by
    cases hexec
    simpa [List.getElem?_set_self (hinv.wins_length ▸ hw)] using hv'
  have hok' := hok.push hN hraw
  have hsum := hok.push_sum hN hraw
  refine ⟨hok'.sum_total, hok'.sum_le, hok'.sum_lt, ?_⟩
  rw [hsum]
  exact exact_eq_mod hok.evicted_le_sum (hok.evicted_le_sum.trans hok.sum_lt.le)
    (hsum ▸ hok'.sum_lt)

/-- Settles O21: an executed SAMPLE sets one window and the response registers, one out of range
the response registers alone. -/
theorem sampleLeavesTheRestAlone : Obligations.SampleLeavesTheRestAlone := by
  intro s t w raw hexec
  by_cases hw : w < s.cfg.numWin
  · rw [exec_sample s raw hw] at hexec
    cases hexec
    exact ⟨fun w' hne => List.getElem?_set_ne hne.symm, List.length_set, rfl, rfl, rfl, rfl, rfl,
      rfl⟩
  · rw [exec_sample_invalid s raw (Nat.not_lt.mp hw)] at hexec
    cases hexec
    exact ⟨fun _ _ => rfl, rfl, rfl, rfl, rfl, rfl, rfl, rfl⟩

/-- Settles O23: the new window is sound, so its average has ADC_W bits. -/
theorem sampleResultFitsTheReading : Obligations.SampleResultFitsTheReading := by
  intro s w raw hinv hw hraw
  have hlegal := hinv.cfg_legal
  have hok := (hinv.windowsOk.window_ok hw).push hlegal.one_le_windowN hraw
  have hle : (((s.window w).push s.cfg raw).average s.cfg).toNat ≤ 2 ^ s.cfg.adcW - 1 :=
    hok.average_toNat hlegal ▸ hok.average_le
  refine ⟨_, exec_sample_of_fits hw hraw, hle, fun k hk => ?_⟩
  have hlt : (((s.window w).push s.cfg raw).average s.cfg).toNat < 2 ^ k :=
    (Nat.lt_of_le_sub_one (Nat.two_pow_pos _) hle).trans_le
      (Nat.pow_le_pow_right Nat.two_pos hk)
  exact Nat.testBit_eq_false_of_lt hlt

/-! ### Results along a run -/

/-- Settles O24: the run pushes the stream's readings of the window, each one step of its cursor. -/
theorem cursorVisitsSlotsInOrder : Obligations.CursorVisitsSlotsInOrder := by
  intro s w es rest hinv hw hes
  have hok : State.WindowsOk s.cfg { s with inputs := es ++ rest } := hinv.windowsOk.congr rfl rfl
  obtain ⟨t, ht, -, -, hwin⟩ := run_window hok hinv.cfg_legal.one_le_windowN hes rfl
  refine ⟨t, ht, ?_⟩
  rw [hwin w]
  exact Window.pushAll_cur (hok.window_ok hw).cur_lt _

/-- Settles O25: the answer averages the last WINDOW_N readings, of which those held at reset are
0. -/
theorem sampleAveragesTheLastReadings : Obligations.SampleAveragesTheLastReadings := by
  intro p w r es rest e hlegal hes he
  have hok : State.WindowsOk p { State.resetOf p with inputs := es ++ e :: rest } :=
    (resetOf_windowsOk hlegal.one_le_windowN).congr rfl rfl
  obtain ⟨t, ht, hvalid, herr, hdata⟩ := run_answers_average hok hlegal hes he rfl
  refine ⟨t, ht, hvalid, herr, hdata.trans ?_⟩
  have hreset : State.window { State.resetOf p with inputs := es ++ e :: rest } w =
      Window.zero p := State.window_resetOf p w
  rw [hreset, Window.held_zero, sum_lastReadings_zeros]

/-- Settles O27: WINDOW_N readings have come, so the answer averages them alone, and they are all
`v`. -/
theorem constantReadingsAverageToThemselves : Obligations.ConstantReadingsAverageToThemselves := by
  intro s w v es rest e hinv hes he hlast
  have hok : State.WindowsOk s.cfg { s with inputs := es ++ e :: rest } :=
    hinv.windowsOk.congr rfl rfl
  obtain ⟨t, ht, -, -, hdata⟩ := run_answers_average hok hinv.cfg_legal hes he rfl
  have hlen : s.cfg.windowN ≤ (readings s.cfg w es ++ [v]).length := by
    have := congrArg List.length hlast
    rwa [lastReadings, List.length_take, List.length_reverse, List.length_replicate,
      min_eq_left_iff] at this
  refine ⟨t, ht, ?_⟩
  rw [hdata, lastReadings_append_of_le _ hlen, hlast, List.sum_replicate, smul_eq_mul,
    Nat.mul_div_cancel_left _ hinv.cfg_legal.one_le_windowN]

end Sys2Proof.Machine
end

section
/-! The level latch (R90 to R93): what the comparator answers, what each command leaves in
`last_level`, and what a list of commands leaves there. -/

namespace Sys2Proof.Machine

/-! ### The comparator -/

/-- R91's table, row by row: the comparator triggers on the transition its edge names, and on no
other. -/
theorem triggered_iff {last level : Level} {edge : Edge} :
    triggered last level edge = true ↔
      (edge = .rising ∧ last = .low ∧ level = .high) ∨
      (edge = .falling ∧ last = .high ∧ level = .low) := by
  cases last <;> cases level <;> cases edge <;> decide

/-- Without a transition there is no trigger, whatever the edge asked for (R91). -/
@[simp] theorem triggered_self (level : Level) (edge : Edge) :
    triggered level level edge = false := by
  simp [triggered]

variable {s t : State} {level : Level}

/-! ### One command -/

/-- A POLL at the latched level changes nothing but the response, which is 0. -/
theorem exec_poll_of_lastLevel_eq (h : s.lastLevel = level) (edge : Edge) :
    exec (.poll edge level) s = .next (s.respond 0) := by
  subst h
  rw [exec_poll, triggered_self]
  rfl

/-- Only POLL writes the latch, and it writes its own level (R92, R93). -/
theorem exec_lastLevel_cases {i : Instr} (h : exec i s = .next t) :
    t.lastLevel = s.lastLevel ∨ ∃ edge, i = .poll edge t.lastLevel := by
  obtain ⟨-, rfl⟩ | ⟨_, _, -, -, rfl⟩ | ⟨_, _, -, -, rfl⟩ | ⟨edge, _, rfl, rfl⟩ | ⟨_, _, -, rfl⟩ |
    ⟨_, -, rfl⟩ | ⟨_, -, rfl⟩ := exec_cases h
  case inr.inr.inr.inl => exact .inr ⟨edge, rfl⟩
  all_goals exact .inl rfl

/-! ### A list of commands -/

theorem execAll_cons {i : Instr} (h : exec i s = .next t) (is : List Instr) :
    execAll (i :: is) s = execAll is t := by
  simp [execAll, h]

theorem execAll_append {is : List Instr} (h : execAll is s = .next t) (js : List Instr) :
    execAll (is ++ js) s = execAll js t := by
  induction is generalizing s with
  | nil => cases h; rfl
  | cons i is ih =>
    obtain ⟨u, hu, -⟩ := exec_next i s
    rw [execAll_cons hu] at h
    rw [List.cons_append, execAll_cons hu, ih h]

/-- Commands among which every POLL has the latched level complete and keep the latch. -/
theorem execAll_keeps_lastLevel {is : List Instr} (hs : s.lastLevel = level)
    (his : ∀ edge l, Instr.poll edge l ∈ is → l = level) :
    ∃ t, execAll is s = .next t ∧ t.lastLevel = level := by
  induction is generalizing s with
  | nil => exact ⟨s, rfl, hs⟩
  | cons i is ih =>
    obtain ⟨u, hu, -⟩ := exec_next i s
    have hlevel : u.lastLevel = level := by
      obtain h | ⟨edge, rfl⟩ := exec_lastLevel_cases hu
      · exact h.trans hs
      · exact his edge _ List.mem_cons_self
    obtain ⟨t, ht, hlast⟩ := ih hlevel fun edge l hmem => his edge l (List.mem_cons_of_mem i hmem)
    exact ⟨t, (execAll_cons hu is).trans ht, hlast⟩

/-! ### One edge -/

theorem rst_of_fetch_reset (h : s.fetch = .reset) : s.nextInput.rst = true := by
  by_contra hr
  exact fetch_ne_reset (Bool.eq_false_of_not_eq_true hr) h

end Sys2Proof.Machine
end

section
/-! The statements about POLL: one command, the edges that change the latch, and POLLs in
sequence. -/

namespace Sys2Proof.Machine

/-- Settles O31: an edge without a reset changes the latch only through the command it accepts, and
only a POLL changes it. -/
theorem onlyPollWritesTheLatch : Obligations.OnlyPollWritesTheLatch := by
  intro s t hstep hne
  obtain ⟨hf, -⟩ | ⟨-, rfl⟩ | ⟨_, -, rfl⟩ | ⟨i, u, hf, he, rfl⟩ := step_cases hstep
  · exact .inl (rst_of_fetch_reset hf)
  · exact absurd rfl hne
  · exact absurd rfl hne
  · obtain ⟨-, hvalid, hdecode⟩ := fetch_command_inv hf
    obtain hkept | ⟨edge, rfl⟩ := exec_lastLevel_cases he
    · exact absurd hkept hne
    · exact .inr ⟨hvalid, edge, _, hdecode, rfl⟩

/-- Settles O33: once a POLL has latched a level, the latch holds it up to the next POLL at another
level, and a POLL at the latched level answers 0. -/
theorem eachTransitionIsReportedOnce : Obligations.EachTransitionIsReportedOnce := by
  refine ⟨fun is s first last level his => ?_, fun s hlow => ?_, fun s e f => ?_⟩
  · obtain ⟨u, hu, hlatched⟩ : ∃ u, exec (.poll first level) s = .next u ∧ u.lastLevel = level :=
      ⟨_, exec_poll s first level, rfl⟩
    obtain ⟨t, ht, hlevel⟩ := execAll_keeps_lastLevel hlatched his
    have hrun : execAll (.poll first level :: is) s = .next t := (execAll_cons hu is).trans ht
    refine ⟨t.respond 0, ?_, rfl⟩
    rw [execAll_append hrun, execAll_cons (exec_poll_of_lastLevel_eq hlevel last), execAll]
  · have hno : triggered s.lastLevel .high .falling = false := by rw [hlow]; rfl
    refine ⟨_, _, exec_poll s .falling .high, ?_, rfl, exec_poll_of_lastLevel_eq rfl .rising, rfl⟩
    rw [hno]
    rfl
  · exact ⟨_, _, exec_poll s e .low, exec_poll_of_lastLevel_eq rfl f, rfl⟩

/-- Settles O29: the comparator's bit, read as a word, is 1 on the transition the edge names. -/
theorem pollReportsTheEdgeAndLatches : Obligations.PollReportsTheEdgeAndLatches := by
  intro s edge level
  rw [exec_poll]
  simp only [← triggered_iff]
  cases triggered s.lastLevel level edge <;> rfl

/-- Settles O30: the first POLL latches the level, so the second sees no transition. -/
theorem repeatedPollReturnsZero : Obligations.RepeatedPollReturnsZero := by
  intro s edge level
  refine ⟨_, _, exec_poll s edge level, exec_poll_of_lastLevel_eq rfl edge, rfl, rfl, rfl, ?_⟩
  intro h
  rw [h, State.respond_rspData]
  decide

/-- Settles O32: reset latches LOW, so HIGH is a rising edge and LOW is none. -/
theorem firstPollComparesWithLow : Obligations.FirstPollComparesWithLow := by
  intro p
  exact ⟨⟨_, exec_poll _ .rising .high, rfl⟩, ⟨_, exec_poll_of_lastLevel_eq rfl .falling, rfl⟩⟩

end Sys2Proof.Machine
end

section
/-! The lookup tables (R102, R104): every table of a legal instance has an entry, the saturated index
names one, and no edge changes the parameters the tables stand in. -/

namespace Sys2Proof.Machine

variable {p : Params} {s t : State}

/-! ### The index-saturate stage -/

theorem legalLength_tableRom (h : p.Legal) (table : TableId) : LegalLength (tableRom p table) := by
  obtain ⟨-, -, -, -, -, hfreq, hexp, hlog, hsemitone, hmajor, -⟩ := h
  cases table with
  | freq => exact hfreq
  | exp => exact hexp
  | log => exact hlog
  | semitone => exact hsemitone
  | major => exact hmajor

/-- The minimum of R101 is the clamp of R104. -/
theorem saturateIndex_eq_ite (p : Params) (table : TableId) (index : Word) :
    saturateIndex p table index =
      if tableLen p table ≤ index.toNat then tableLen p table - 1 else index.toNat := by
  rw [saturateIndex]
  split
  case isTrue h => exact min_eq_right ((Nat.sub_le _ 1).trans h)
  case isFalse h => exact min_eq_left (Nat.le_sub_one_of_lt (Nat.not_le.mp h))

theorem saturateIndex_lt (h : p.Legal) (table : TableId) (index : Word) :
    saturateIndex p table index < tableLen p table :=
  (min_le_right _ _).trans_lt (Nat.sub_one_lt_of_lt (legalLength_tableRom h table).1)

/-- A read below the table's length reads an entry, not the default of `romRead`. -/
theorem getElem?_tableRom {table : TableId} {i : Nat} (h : i < tableLen p table) :
    (tableRom p table)[i]? = some (romRead p table i) := by
  rw [romRead, List.getD_eq_getElem _ _ h]
  exact List.getElem?_eq_getElem h

/-! ### The parameters along a run -/

theorem step_keeps_cfg (h : step s = .next t) : t.cfg = s.cfg := by
  obtain ⟨u, hu, hcfg, -⟩ := step_next s
  obtain rfl : t = u := by simpa [h] using hu
  exact hcfg

/-- No run changes the parameters, so none changes a table (R33, R105). -/
theorem reaches_keeps_cfg {n : Nat} (h : Reaches n s t) : t.cfg = s.cfg :=
  reaches_keeps (P := fun u => u.cfg = s.cfg) (fun _ _ hu hs => (step_keeps_cfg hs).trans hu) rfl h

end Sys2Proof.Machine
end

section
/-! The statements about MAP. -/

namespace Sys2Proof.Machine

/-- Settles O34: the saturated index is the clamped one, and names an entry of the table. -/
theorem mapReadsTheSaturatedEntry : Obligations.MapReadsTheSaturatedEntry := by
  intro s table index hlegal
  refine ⟨romRead s.cfg table (saturateIndex s.cfg table index), ?_, exec_map s table index⟩
  have hentry := getElem?_tableRom (saturateIndex_lt hlegal table index)
  rwa [saturateIndex_eq_ite] at hentry ⊢

/-- Settles O35: MAP's answer is a function of the parameters, which the run keeps. -/
theorem mapIsPure : Obligations.MapIsPure := by
  intro n s t table index hrun
  refine ⟨romRead s.cfg table (saturateIndex s.cfg table index), exec_map s table index, ?_⟩
  rw [← reaches_keeps_cfg hrun]
  exact exec_map t table index

end Sys2Proof.Machine
end

section
/-! The PWM driver (43_pwm_writer.md): the words of its commands, what each command leaves in its two
registers, and what an edge and a run leave in them and in the timer (R109 to R116, R134). -/

namespace Sys2Proof.Machine

variable {p : Params} {s t : State}

/-! ### Words and commands -/

/-- A command without a selector is accepted with SEL 0 alone (R60, R61). -/
theorem decodeUnselected_by_sel (sel : BitVec 4) (i : Instr) :
    (sel = 0 → decodeUnselected sel i = .instr i) ∧
      (sel ≠ 0 → decodeUnselected sel i = .rejected .selNotZero) :=
  ⟨fun h => if_pos h, fun h => if_neg h⟩

/-- PWM_SET alone writes `pwm_cmp` (R120). -/
theorem exec_pwmCmp_cases {i : Instr} (h : exec i s = .next t) :
    t.pwmCmp = s.pwmCmp ∧ (∀ v, i ≠ .pwmSet v) ∨
      ∃ v, i = .pwmSet v ∧ t.pwmCmp = levelOperand s.cfg v := by
  obtain ⟨rfl, rfl⟩ | ⟨_, _, rfl, -, rfl⟩ | ⟨_, _, rfl, -, rfl⟩ | ⟨_, _, rfl, rfl⟩ |
    ⟨_, _, rfl, rfl⟩ | ⟨b, rfl, rfl⟩ | ⟨v, rfl, rfl⟩ := exec_cases h
  case inr.inr.inr.inr.inr.inr => exact .inr ⟨v, rfl, rfl⟩
  case inr.inr.inr.inr.inr.inl => exact .inl ⟨rfl, by cases b <;> simp⟩
  all_goals exact .inl ⟨rfl, nofun⟩

/-- PWM_ENABLE and PWM_DISABLE alone write `pwm_en` (R120). -/
theorem exec_pwmEn_cases {i : Instr} (h : exec i s = .next t) :
    t.pwmEn = s.pwmEn ∨ (i = .pwmEnable ∧ t.pwmEn = true) ∨
      (i = .pwmDisable ∧ t.pwmEn = false) := by
  obtain ⟨-, rfl⟩ | ⟨_, _, -, -, rfl⟩ | ⟨_, _, -, -, rfl⟩ | ⟨_, _, -, rfl⟩ | ⟨_, _, -, rfl⟩ |
    ⟨b, rfl, rfl⟩ | ⟨_, -, rfl⟩ := exec_cases h
  case inr.inr.inr.inr.inr.inl =>
    cases b with
    | true => exact .inr (.inl ⟨rfl, rfl⟩)
    | false => exact .inr (.inr ⟨rfl, rfl⟩)
  all_goals exact .inl rfl

/-- The state a PWM command leaves is a fixed point of that command and of NOP (R119). -/
theorem exec_pwm_settles {i : Instr} (hi : i = .pwmEnable ∨ i = .pwmDisable ∨ ∃ v, i = .pwmSet v)
    (h : exec i s = .next t) : exec i t = .next t ∧ exec .nop t = .next t := by
  obtain rfl | rfl | ⟨v, rfl⟩ := hi <;> cases h <;> exact ⟨rfl, rfl⟩

/-! ### The compare value of a port input -/

theorem compare?_eq_some_iff {e : PortInput} {v : Word} :
    e.compare? p = some v ↔ e.instr? p = some (.pwmSet v) := by
  unfold PortInput.compare?
  split
  · next v' hi => simp [hi]
  · next hi => exact iff_of_false (nomatch ·) (hi v)

theorem compare?_eq_none_iff {e : PortInput} :
    e.compare? p = none ↔ ∀ v, e.instr? p ≠ some (.pwmSet v) := by
  simp [Option.eq_none_iff_forall_ne_some, compare?_eq_some_iff]

/-! ### One edge -/

theorem nextInput_of_inputs {e : PortInput} {es : List PortInput} (h : s.inputs = e :: es) :
    s.nextInput = e := by
  rw [State.nextInput, h, List.headD_cons]

theorem step_inputs (h : step s = .next t) : t.inputs = s.inputs.tail := by
  obtain ⟨u, hu, -, hinputs, -⟩ := step_next s
  obtain rfl : t = u := by simpa [h] using hu
  exact hinputs

theorem step_timer (h : step s = .next t) : t.timer = s.timerAfter := by
  obtain ⟨u, hu, -, -, htimer⟩ := step_next s
  obtain rfl : t = u := by simpa [h] using hu
  exact htimer

/-- An edge without a reset leaves in `pwm_cmp` the value its input writes, if any (R113). -/
theorem step_pwmCmp (hr : s.nextInput.rst = false) (h : step s = .next t) :
    t.pwmCmp = (s.nextInput.compare? s.cfg).getD s.pwmCmp := by
  obtain ⟨hf, -⟩ | ⟨hf, rfl⟩ | ⟨_, hf, rfl⟩ | ⟨i, u, hf, he, rfl⟩ := step_cases h
  · exact absurd hf (fetch_ne_reset hr)
  case inr.inr.inr =>
    have hi : s.nextInput.instr? s.cfg = some i := instr?_eq_some_iff.mpr hf
    obtain ⟨hkept, hne⟩ | ⟨v, rfl, hset⟩ := exec_pwmCmp_cases he
    · rw [compare?_eq_none_iff.mpr (by simpa [hi] using hne)]
      exact hkept
    · have hfits : v.toNat < 2 ^ s.cfg.pwmW := by
        simpa [Instr.wellFormed] using instr?_wellFormed hi
      rw [compare?_eq_some_iff.mpr hi]
      exact hset.trans (lowBits_eq_self hfits)
  all_goals
    have hnone : s.nextInput.instr? s.cfg = none := instr?_eq_none (by simp [hf])
    rw [compare?_eq_none_iff.mpr (by simp [hnone])]
    rfl

/-- Without a reset or a PWM_DISABLE an enabled driver stays enabled (R109, R111). -/
theorem step_keeps_enabled (hen : s.pwmEn = true) (he : s.nextInput.keepsEnabled s.cfg)
    (h : step s = .next t) : t.pwmEn = true := by
  obtain ⟨hrst, hdis⟩ := he
  obtain ⟨hf, -⟩ | ⟨-, rfl⟩ | ⟨_, -, rfl⟩ | ⟨i, u, hf, he, rfl⟩ := step_cases h
  · exact absurd hf (fetch_ne_reset hrst)
  · exact hen
  · exact hen
  · obtain hkept | ⟨-, hset⟩ | ⟨rfl, -⟩ := exec_pwmEn_cases he
    · exact hkept.trans hen
    · exact hset
    · exact absurd (instr?_eq_some_iff.mpr hf) hdis

theorem step_timer_disabled (hr : s.nextInput.rst = false) (hen : s.pwmEn = false)
    (h : step s = .next t) : t.timer = { cnt := 0, active := s.pwmCmp, irq := false } := by
  rw [step_timer h, State.timerAfter, hr, State.pwmEnO, hen]
  exact timerStep_disabled ..

theorem step_timer_within (hp : s.cfg.Legal) (hr : s.nextInput.rst = false) (hen : s.pwmEn = true)
    (hcnt : s.timer.cnt < s.cfg.pwmTop) (h : step s = .next t) :
    t.timer = { cnt := s.timer.cnt + 1, active := s.timer.active, irq := false } := by
  rw [step_timer h, State.timerAfter, hr, State.pwmEnO, hen]
  exact timerStep_within _ _ _ hp hcnt

/-- The edge that ends a period latches the pre-edge `pwm_cmp` for the next one (R134). -/
theorem step_timer_boundary (hr : s.nextInput.rst = false) (hen : s.pwmEn = true)
    (hcnt : s.timer.cnt = s.cfg.pwmTop) (h : step s = .next t) :
    t.timer = { cnt := 0, active := s.pwmCmp, irq := true } := by
  rw [step_timer h, State.timerAfter, hr, State.pwmEnO, hen]
  exact timerStep_boundary _ _ _ hcnt

/-! ### A run -/

/-- Over a stream without a reset the last value written to `pwm_cmp` stays (R114). -/
theorem reaches_pwmCmp {es rest : List PortInput} (h : Reaches es.length s t)
    (hes : ∀ e ∈ es, e.rst = false) (hin : s.inputs = es ++ rest) :
    t.pwmCmp = ((es.filterMap (PortInput.compare? s.cfg)).getLast?).getD s.pwmCmp := by
  induction es generalizing s with
  | nil => rw [reaches_zero.mp h]; rfl
  | cons e es ih =>
    obtain ⟨he, hes⟩ := List.forall_mem_cons.mp hes
    have hnext : s.nextInput = e := nextInput_of_inputs hin
    obtain ⟨u, hu, hrun⟩ := reaches_succ.mp h
    rw [ih hrun hes (by simp [step_inputs hu, hin]), step_keeps_cfg hu,
      step_pwmCmp (hnext ▸ he) hu, hnext]
    cases hc : e.compare? s.cfg with
    | none => simp [hc]
    | some v => simp [hc, List.getLast?_cons]

theorem reaches_keeps_pwmCmp {es rest : List PortInput} (h : Reaches es.length s t)
    (hes : ∀ e ∈ es, e.rst = false) (hin : s.inputs = es ++ rest)
    (hcmp : ∀ e ∈ es, e.compare? s.cfg = none) : t.pwmCmp = s.pwmCmp := by
  rw [reaches_pwmCmp h hes hin, List.filterMap_eq_nil_iff.mpr hcmp]
  rfl

/-- Up to a period's last count the timer counts the edges and keeps the period's compare value
(R134), while no input disables the driver. -/
theorem run_within_period {es rest : List PortInput} (hp : s.cfg.Legal) (hen : s.pwmEn = true)
    (hes : ∀ e ∈ es, e.keepsEnabled s.cfg) (hin : s.inputs = es ++ rest)
    (hcnt : s.timer.cnt + es.length ≤ s.cfg.pwmTop) :
    ∃ t, Reaches es.length s t ∧ t.inputs = rest ∧ t.pwmEn = true ∧
      t.timer.cnt = s.timer.cnt + es.length ∧ t.timer.active = s.timer.active := by
  induction es generalizing s with
  | nil => exact ⟨s, reaches_zero.mpr rfl, hin, hen, rfl, rfl⟩
  | cons e es ih =>
    obtain ⟨he, hes⟩ := List.forall_mem_cons.mp hes
    have hnext : s.nextInput = e := nextInput_of_inputs hin
    rw [List.length_cons] at hcnt
    obtain ⟨u, hu, hcfg, hinu, -⟩ := step_next s
    have htimer := step_timer_within hp (hnext ▸ he.1) hen (by omega) hu
    obtain ⟨t, ht, hint, hent, hcntt, hact⟩ :=
      ih (hcfg ▸ hp) (step_keeps_enabled hen (hnext ▸ he) hu) (hcfg ▸ hes) (by simp [hinu, hin])
        (by rw [htimer, hcfg]; dsimp only; omega)
    rw [htimer] at hcntt hact
    refine ⟨t, reaches_succ.mpr ⟨u, hu, ht⟩, hint, hent, ?_, hact⟩
    rw [hcntt, List.length_cons, Nat.add_right_comm, Nat.add_assoc]

/-- The edge after a period's last count starts the next period with a pulse, on the compare value
held before it (R134). -/
theorem run_past_boundary {es rest : List PortInput} {e : PortInput} (hp : s.cfg.Legal)
    (hen : s.pwmEn = true) (hes : ∀ x ∈ es, x.keepsEnabled s.cfg) (he : e.rst = false)
    (hin : s.inputs = es ++ e :: rest) (hcnt : s.timer.cnt + es.length = s.cfg.pwmTop) :
    ∃ u t, Reaches es.length s u ∧ Reaches (es.length + 1) s t ∧
      t.timer = { cnt := 0, active := u.pwmCmp, irq := true } := by
  obtain ⟨u, hu, hinu, henu, hcntu, -⟩ := run_within_period hp hen hes hin hcnt.le
  have hnext : u.nextInput = e := nextInput_of_inputs hinu
  have htop : u.timer.cnt = u.cfg.pwmTop := by rw [hcntu, hcnt, reaches_keeps_cfg hu]
  obtain ⟨t, ht, -⟩ := step_next u
  exact ⟨u, t, hu, reaches_add.mpr ⟨u, hu, reaches_one.mpr ht⟩,
    step_timer_boundary (hnext ▸ he) henu htop ht⟩

end Sys2Proof.Machine
end

section
/-! The statements about the PWM driver: its commands, and its timer while disabled and while no
PWM_SET arrives. -/

namespace Sys2Proof.Machine

/-- Settles O52: the period's last count is reached with `pwm_cmp` unwritten, so the edge that ends it
latches the same value again. -/
theorem zeroOrderHold : Obligations.ZeroOrderHold := by
  intro s es rest hinv hen hact hcnt hlen hes
  obtain ⟨es, e, rfl⟩ : ∃ init last, es = init ++ [last] :=
    (List.eq_nil_or_concat' es).resolve_left (List.ne_nil_of_length_eq_add_one hlen)
  have hrst : ∀ x ∈ es ++ [e], x.rst = false := fun x hx => (hes x hx).1.1
  have hcmp : ∀ x ∈ es ++ [e], x.compare? s.cfg = none := fun x hx => (hes x hx).2
  have hinit : ∀ x ∈ es, x ∈ es ++ [e] := fun x hx => List.mem_append_left _ hx
  have hcount : s.timer.cnt + es.length = s.cfg.pwmTop := by simpa [hcnt] using hlen
  have hin : es ++ [e] ++ rest = es ++ e :: rest := List.append_assoc es [e] rest
  obtain ⟨u, t, hu, ht, htimer⟩ := run_past_boundary (s := { s with inputs := es ++ [e] ++ rest })
    hinv.cfg_legal hen (fun x hx => (hes x (hinit x hx)).1) (hrst e List.mem_concat_self) hin hcount
  rw [show es.length + 1 = (es ++ [e]).length by simp] at ht
  have hcmpu := reaches_keeps_pwmCmp hu (fun x hx => hrst x (hinit x hx)) hin
    fun x hx => hcmp x (hinit x hx)
  have hcmpt := reaches_keeps_pwmCmp ht hrst rfl hcmp
  exact ⟨t, ht, by rw [htimer, hcmpu, hact], hcmpt⟩

/-- Settles O37: the command is its equation, and OP 4 takes SEL 0 alone. -/
theorem pwmEnableSetsTheEnableBit : Obligations.PwmEnableSetsTheEnableBit := by
  refine fun s => ⟨exec_pwmEnable s, fun w hop => ?_⟩
  rw [decode_pwmEnable hop]
  exact decodeUnselected_by_sel _ _

/-- Settles O38: the command is its equation, and OP 5 takes SEL 0 alone. -/
theorem pwmDisableClearsTheEnableBit : Obligations.PwmDisableClearsTheEnableBit := by
  refine fun s => ⟨exec_pwmDisable s, fun w hop => ?_⟩
  rw [decode_pwmDisable hop]
  exact decodeUnselected_by_sel _ _

/-- Settles O39: the command is its equation for any `pwm_en`, and OP 6 takes SEL 0 alone. -/
theorem pwmSetWritesTheCompareRegister : Obligations.PwmSetWritesTheCompareRegister := by
  refine fun s => ⟨exec_pwmSet s, fun w hop => ?_⟩
  rw [decode_pwmSet hop]
  exact decodeUnselected_by_sel _ _

/-- Settles O40: each of the four commands writes `rsp_valid` and at most one driver register, and among
all commands the driver registers have only the writers R120 names. -/
theorem pwmCommandsLeaveTheRestAlone : Obligations.PwmCommandsLeaveTheRestAlone := by
  intro i s t hi hexec
  have hcmp : t.pwmCmp ≠ s.pwmCmp → ∃ v, i = .pwmSet v := fun hne =>
    (exec_pwmCmp_cases hexec).elim (fun h => absurd h.1 hne) fun ⟨v, hv, _⟩ => ⟨v, hv⟩
  have hen : t.pwmEn ≠ s.pwmEn → i = .pwmEnable ∨ i = .pwmDisable := fun hne =>
    ((exec_pwmEn_cases hexec).resolve_left hne).imp And.left And.left
  obtain rfl | rfl | rfl | ⟨v, rfl⟩ := hi <;> cases hexec <;>
    exact ⟨rfl, rfl, rfl, rfl, rfl, rfl, rfl, rfl, hcmp, hen⟩

/-- Settles O41: what follows the first command, itself again or a NOP, changes nothing more. -/
theorem pwmCommandsAreIdempotent : Obligations.PwmCommandsAreIdempotent := by
  intro s i hi
  obtain ⟨t, ht, -⟩ := exec_next i s
  obtain ⟨hagain, hnop⟩ := exec_pwm_settles hi ht
  refine ⟨t, ?_, ?_, ?_⟩
  · rw [execAll_cons ht, execAll_cons hagain, execAll]
  · rw [execAll_cons ht, execAll_cons hnop, execAll]
  · rintro rfl
    cases ht
    rfl

/-- Settles O48: with `pwm_en` 0 the timer takes its stopped branch, and a reset zeroes it as well. -/
theorem disabledTimerIsStopped : Obligations.DisabledTimerIsStopped := by
  intro s hen
  obtain ⟨t, ht, -⟩ := step_next s
  refine ⟨by simp [State.pwmPin, hen], t, ht, ?_⟩
  cases hr : s.nextInput.rst with
  | true => rw [step_timer ht, State.timerAfter, hr, timerStep_rst]; exact ⟨rfl, rfl⟩
  | false => rw [step_timer_disabled hr hen ht]; exact ⟨rfl, rfl⟩

end Sys2Proof.Machine
end

section
/-! NOP and the idle edge (44_nop_invalid.md): NOP's words and meaning, and that an edge with nothing
presented leaves the same state (R123, R124). -/

namespace Sys2Proof.Machine

/-- NOP's word is accepted in every instance: its OP and SEL are 0 (R62, R72). -/
theorem decode_encode_nop (p : Params) : decode p (encode .nop) = .instr .nop := by
  have hop : opField (encode .nop) = 0 := Laws.Layout.nop.1
  have hsel : selField (encode .nop) = 0 := by simp [encode]
  rw [decode_nop hop, hsel]
  exact (decodeUnselected_by_sel 0 .nop).1 rfl

/-- An edge without a reset and with `cmd_valid` 0 drops `rsp_valid` and moves the timer, whatever
`cmd` holds (R55, R127). -/
theorem step_present_idle (s : State) (c : Cmd) :
    step (s.present { rst := false, cmdValid := false, cmd := c }) =
      .next (s.noResponse.withTimer (timerStep s.cfg false s.pwmEn s.pwmCmp s.timer)) :=
  step_of_idle (fetch_of_idle (s := s.present ⟨false, false, c⟩) rfl rfl)

/-- Settles O9: the idle edge and the edge that accepts NOP leave the same state, since NOP does
nothing but `noResponse`. -/
theorem idleEdgeActsAsNop : Obligations.IdleEdgeActsAsNop := by
  intro s c
  have hnop := step_present_instr (decode_encode_nop s.cfg) (exec_nop s)
  exact (step_present_idle s c).trans hnop.symm

/-- Settles O42: the command is its equation, and OP 0 takes SEL 0 alone. -/
theorem nopOnlyDropsRspValid : Obligations.NopOnlyDropsRspValid := by
  refine fun s => ⟨exec_nop s, fun w hop => ?_⟩
  rw [decode_nop hop]
  exact decodeUnselected_by_sel _ _

end Sys2Proof.Machine
end

section
/-! The environment timer over a whole period (R134, R138): what the enabling edge leaves, that the edges
inside a period bring no pulse, and that the driver is enabled at the period's end. -/

namespace Sys2Proof.Machine

variable {s t : State} {es rest : List PortInput}

/-- The edge that accepts PWM_ENABLE on a disabled driver leaves it enabled, its timer at the start of a
period without a pulse, on the compare value of that edge (R109, R134). -/
theorem step_enables (hen : s.pwmEn = false) (hi : s.nextInput.instr? s.cfg = some .pwmEnable) :
    ∃ u, step s = .next u ∧ u.cfg = s.cfg ∧ u.inputs = s.inputs.tail ∧ u.pwmEn = true ∧
      u.timer = { cnt := 0, active := s.pwmCmp, irq := false } := by
  have hf : s.fetch = .command .pwmEnable := instr?_eq_some_iff.mp hi
  have hu := step_of_command hf (exec_pwmEnable _)
  exact ⟨_, hu, rfl, rfl, rfl, step_timer_disabled (fetch_command_inv hf).1 hen hu⟩

theorem reaches_after_step {n : Nat} {u : State} (hu : step s = .next u) (h : Reaches n u t) :
    Reaches (1 + n) s t :=
  reaches_add.mpr ⟨u, reaches_one.mpr hu, h⟩

/-- A run in which no input resets or disables leaves an enabled driver enabled. -/
theorem reaches_keeps_enabled (h : Reaches es.length s t) (hen : s.pwmEn = true)
    (hes : ∀ x ∈ es, x.keepsEnabled s.cfg) (hin : s.inputs = es ++ rest) : t.pwmEn = true := by
  induction es generalizing s with
  | nil => rwa [reaches_zero.mp h]
  | cons e es ih =>
    obtain ⟨he, hes⟩ := List.forall_mem_cons.mp hes
    obtain ⟨u, hu, hrun⟩ := reaches_succ.mp h
    have henu := step_keeps_enabled hen (nextInput_of_inputs hin ▸ he) hu
    exact ih hrun henu (step_keeps_cfg hu ▸ hes) (by simp [step_inputs hu, hin])

/-- After one or more edges inside a period the pulse is 0: the last of them cleared it (R134). -/
theorem run_within_period_no_pulse (hp : s.cfg.Legal) (hen : s.pwmEn = true)
    (hes : ∀ x ∈ es, x.keepsEnabled s.cfg) (hin : s.inputs = es ++ rest) (hne : es ≠ [])
    (hcnt : s.timer.cnt + es.length ≤ s.cfg.pwmTop) :
    ∃ t, Reaches es.length s t ∧ t.pwmEn = true ∧
      t.timer = { cnt := s.timer.cnt + es.length, active := s.timer.active, irq := false } := by
  obtain ⟨es, e, rfl⟩ := (List.eq_nil_or_concat' es).resolve_left hne
  have hinit : ∀ x ∈ es, x.keepsEnabled s.cfg := fun x hx => hes x (List.mem_append_left _ hx)
  have hlast : e.keepsEnabled s.cfg := hes e List.mem_concat_self
  rw [List.length_append, List.length_singleton] at hcnt ⊢
  obtain ⟨u, hu, hinu, henu, hcntu, hactu⟩ :=
    run_within_period hp hen hinit (hin.trans (List.append_assoc es [e] rest)) (by omega)
  have hcfg : u.cfg = s.cfg := reaches_keeps_cfg hu
  have hnext : u.nextInput.keepsEnabled u.cfg := by
    rwa [nextInput_of_inputs (e := e) (es := rest) hinu, hcfg]
  obtain ⟨t, ht, -⟩ := step_next u
  have htimer := step_timer_within (hcfg ▸ hp) hnext.1 henu (by rw [hcfg]; omega) ht
  rw [hcntu, hactu] at htimer
  exact ⟨t, reaches_add.mpr ⟨u, hu, reaches_one.mpr ht⟩, step_keeps_enabled henu hnext ht, htimer⟩

section FromAPeriodStart

variable {p : Params} (hcfg : s.cfg = p) (hp : p.Legal) (hen : s.pwmEn = true)
  (hcnt : s.timer.cnt = 0) (hlen : es.length = p.pwmTop + 1) (hes : ∀ x ∈ es, x.keepsEnabled p)
  (hin : s.inputs = es ++ rest)

include hcfg hp hen hcnt hlen hes hin

/-- From a period's start the timer counts the edges up to PWM_TOP, without a further pulse (R138). -/
theorem period_counts {k : Nat} (h1 : 1 ≤ k) (hk : k ≤ p.pwmTop) :
    ∃ t, Reaches k s t ∧ t.pwmEn = true ∧
      t.timer = { cnt := k, active := s.timer.active, irq := false } := by
  subst hcfg
  have htake : (es.take k).length = k := List.length_take_of_le (by omega)
  have hin' : s.inputs = es.take k ++ (es.drop k ++ rest) := by
    rw [← List.append_assoc, List.take_append_drop, hin]
  obtain ⟨t, ht, hent, htimer⟩ := run_within_period_no_pulse hp hen
    (fun x hx => hes x (List.mem_of_mem_take hx)) hin'
    (List.ne_nil_of_length_pos (by omega)) (by omega)
  rw [htake] at ht htimer
  rw [hcnt, Nat.zero_add] at htimer
  exact ⟨t, ht, hent, htimer⟩

/-- From a period's start the next one starts PWM_TOP + 1 edges later, with the pulse and on the
`pwm_cmp` of just before it (R138). -/
theorem period_ends :
    ∃ u t, Reaches p.pwmTop s u ∧ Reaches (p.pwmTop + 1) s t ∧ t.pwmEn = true ∧
      t.timer = { cnt := 0, active := u.pwmCmp, irq := true } := by
  subst hcfg
  obtain ⟨init, e, rfl⟩ : ∃ init last, es = init ++ [last] :=
    (List.eq_nil_or_concat' es).resolve_left (List.ne_nil_of_length_eq_add_one hlen)
  have hinit : init.length = s.cfg.pwmTop := by simpa using hlen
  obtain ⟨u, t, hu, ht, htimer⟩ := run_past_boundary hp hen
    (fun x hx => hes x (List.mem_append_left _ hx)) (hes e List.mem_concat_self).1
    (hin.trans (List.append_assoc init [e] rest)) (by omega)
  rw [hinit] at hu ht
  exact ⟨u, t, hu, ht, reaches_keeps_enabled (hlen ▸ ht) hen hes hin, htimer⟩

end FromAPeriodStart

end Sys2Proof.Machine
end

section
/-! The statements about the environment timer (60_exceptions.md): its step and the length of its
periods. -/

namespace Sys2Proof.Machine

/-- Settles O46: one case for each branch of R134; off PWM_TOP a sound count is below it, so it goes up
by one without wrapping. -/
theorem timerStepsFromThePreEdgeState : Obligations.TimerStepsFromThePreEdgeState := by
  intro s hinv
  obtain ⟨t, ht, -⟩ := step_next s
  refine ⟨t, ht, fun hr => ?reset, fun hr hen => step_timer_disabled hr hen ht,
    fun hr hen hcnt => step_timer_boundary hr hen hcnt ht, fun hr hen hcnt => ?within⟩
  case reset =>
    rw [step_timer ht, State.timerAfter, hr]
    exact timerStep_rst ..
  case within =>
    exact step_timer_within hinv.cfg_legal hr hen (hinv.cnt_le.lt_of_ne hcnt) ht

/-- Settles O50: the enabling edge leaves the timer at the start of a period without a pulse, so the
first period runs as every later one does. -/
theorem periodsAfterEnabling : Obligations.PeriodsAfterEnabling := by
  refine ⟨fun s e es rest hinv hen hi hlen hes => ?_, fun s es rest hinv hen hcnt hlen hes => ?_⟩
  · obtain ⟨u, hu, hcfg, hin, henu, htimer⟩ :=
      step_enables (s := { s with inputs := e :: es ++ rest }) hen hi
    have hcnt : u.timer.cnt = 0 := by rw [htimer]
    refine ⟨fun k hk => ?_, ?_⟩
    · obtain rfl | h1 := Nat.eq_zero_or_pos k
      · exact ⟨u, reaches_one.mpr hu, henu, htimer⟩
      · obtain ⟨t, ht, hent, htime⟩ := period_counts hcfg hinv.cfg_legal henu hcnt hlen hes hin h1 hk
        rw [htimer] at htime
        exact ⟨t, reaches_after_step hu ht, hent, htime⟩
    · obtain ⟨v, t, hv, ht, hent, htime⟩ := period_ends hcfg hinv.cfg_legal henu hcnt hlen hes hin
      have htwo : 1 + (s.cfg.pwmTop + 1) = 2 + s.cfg.pwmTop := by omega
      exact ⟨v, t, reaches_after_step hu hv, htwo ▸ reaches_after_step hu ht, hent, htime⟩
  · exact ⟨fun k => period_counts (s := { s with inputs := es ++ rest }) rfl hinv.cfg_legal hen
        hcnt hlen hes rfl,
      period_ends (s := { s with inputs := es ++ rest }) rfl hinv.cfg_legal hen hcnt hlen hes rfl⟩

end Sys2Proof.Machine
end

section
/-! Reset and hazards (70_reset_and_hazards.md): what a reset edge leaves, that no run stops, and how
long a result stays on the response registers (R149 to R151, R163, R167). -/

namespace Sys2Proof.Machine

variable {s t : State} {es rest : List PortInput}

/-! ### A reset edge -/

/-- At a reset edge nothing else on the ports matters, and the timer's reset state is the one
`State.resetBlock` gives it (R149, R151). -/
theorem step_of_rst (h : s.nextInput.rst = true) : step s = .next s.accept.resetBlock := by
  have htimer : s.timerAfter = Timer.zero := by rw [State.timerAfter, h, timerStep_rst]
  rw [step_of_reset (fetch_of_rst h), htimer]
  rfl

/-- A driver that is disabled holds the pin at PWM_IDLE_LEVEL (R136). -/
theorem State.pwmPin_of_disabled (h : s.pwmEn = false) : s.pwmPin = s.cfg.pwmIdleLevel := by
  simp [State.pwmPin, h]

/-! ### Runs of any length -/

/-- Every run has an end, one input further for each edge (R167). -/
theorem exists_reaches (n : Nat) (s : State) :
    ∃ t, Reaches n s t ∧ t.inputs = s.inputs.drop n := by
  induction n generalizing s with
  | zero => exact ⟨s, reaches_zero.mpr rfl, rfl⟩
  | succ n ih =>
    obtain ⟨u, hu, -⟩ := step_next s
    obtain ⟨t, ht, hin⟩ := ih u
    exact ⟨t, reaches_succ.mpr ⟨u, hu, ht⟩, by rw [hin, step_inputs hu, List.drop_tail]⟩

/-! ### The response registers along a run -/

/-- An edge that accepts a result command raises `rsp_valid` (R29). -/
theorem step_result_valid (h : s.nextInput.isResult s.cfg) (hs : step s = .next t) :
    t.rspValid = true := by
  obtain ⟨hvalid, -⟩ := responseRegistersFollowTheCommand.2 s t h.1 hs
  exact hvalid.mpr h

/-- An edge without a reset that accepts no result command drops `rsp_valid` and keeps the result
(R127). -/
theorem step_holds_result (hr : s.nextInput.rst = false) (h : ¬s.nextInput.isResult s.cfg)
    (hs : step s = .next t) :
    t.rspValid = false ∧ t.rspData = s.rspData ∧ t.rspErr = s.rspErr := by
  obtain ⟨hvalid, -, hkept⟩ := responseRegistersFollowTheCommand.2 s t hr hs
  exact ⟨Bool.eq_false_iff.mpr fun ht => h (hvalid.mp ht), hkept h⟩

/-- Any number of such edges hold the result; `rsp_valid` is 0 after one or more of them, and stays 0
where it was. -/
theorem reaches_holds_result (h : Reaches es.length s t) (hin : s.inputs = es ++ rest)
    (hes : ∀ x ∈ es, x.rst = false ∧ ¬x.isResult s.cfg) :
    t.rspData = s.rspData ∧ t.rspErr = s.rspErr ∧
      (es ≠ [] ∨ s.rspValid = false → t.rspValid = false) := by
  induction es generalizing s with
  | nil =>
    obtain rfl := reaches_zero.mp h
    exact ⟨rfl, rfl, fun hv => hv.resolve_left (absurd rfl)⟩
  | cons e es ih =>
    obtain ⟨⟨hr, hn⟩, hes⟩ := List.forall_mem_cons.mp hes
    obtain ⟨u, hu, hrun⟩ := reaches_succ.mp h
    have hnext : s.nextInput = e := nextInput_of_inputs hin
    obtain ⟨hvalidu, hdatau, herru⟩ := step_holds_result (hnext ▸ hr) (hnext ▸ hn) hu
    obtain ⟨hdata, herr, hvalid⟩ :=
      ih hrun (by simp [step_inputs hu, hin]) (step_keeps_cfg hu ▸ hes)
    exact ⟨hdata.trans hdatau, herr.trans herru, fun _ => hvalid (.inr hvalidu)⟩

end Sys2Proof.Machine
end

section
/-! The statements about reset and hazards. -/

namespace Sys2Proof.Machine

/-- Settles O13: a run of any length exists by `exists_reaches`, and no run changes the parameters. -/
theorem machineNeverStops : Obligations.MachineNeverStops := by
  intro n s
  obtain ⟨t, ht, hin⟩ := exists_reaches n s
  exact ⟨t, ht, hin, reaches_keeps_cfg ht⟩

/-- Settles O45: the accepting edge raises `rsp_valid`, and each edge after it drops `rsp_valid` and
holds the result. -/
theorem resultIsHeldUntilTheNextResult : Obligations.ResultIsHeldUntilTheNextResult := by
  intro s e es rest he hes
  obtain ⟨t, ht, hcfg, hin, -⟩ := step_next { s with inputs := e :: es ++ rest }
  obtain ⟨u, hu, -⟩ := exists_reaches es.length t
  obtain ⟨hdata, herr, hvalid⟩ := reaches_holds_result hu hin (hcfg ▸ hes)
  exact ⟨t, u, reaches_one.mpr ht, reaches_after_step ht hu, step_result_valid he ht, hdata, herr,
    fun hne => hvalid (.inl hne)⟩

/-- Settles O11: the reset edge leaves `State.resetBlock`, whatever command the ports hold, and with the
driver disabled the pin is idle. -/
theorem resetEdgeDiscardsTheCommand : Obligations.ResetEdgeDiscardsTheCommand := fun s e he =>
  ⟨s.resetBlock, step_of_rst (s := s.present e) he, State.pwmPin_of_disabled rfl, rfl⟩

end Sys2Proof.Machine
end

section
/-! The encoder and the decoder as inverses (R67, R68, R72): each well-formed instruction decodes
from its word, and each accepted word encodes to its own significant bits. -/

namespace Sys2Proof

variable {p : Params} {w : Cmd} {i : Instr}

@[simp] theorem Level.bit_ofBit (b : Bool) : (Level.ofBit b).bit = b := by cases b <;> rfl

@[simp] theorem Edge.bit_ofBit (b : Bool) : (Edge.ofBit b).bit = b := by cases b <;> rfl

@[simp] theorem decodeUnselected_zero (i : Instr) : decodeUnselected 0#4 i = .instr i := rfl

/-! ### Decoding an encoded instruction -/

/-- A window number of a legal block is not cut by SEL's 4 bits (R9, R57). -/
theorem toNat_ofNat_window {n : Nat} (hp : p.Legal) (hn : n < p.numWin) :
    (BitVec.ofNat 4 n).toNat = n := by
  obtain ⟨-, -, ⟨-, hmax⟩, -⟩ := hp
  exact (BitVec.toNat_ofNat n 4).trans (Nat.mod_eq_of_lt (by omega))

theorem decode_encode_sample {n : Nat} {raw : Word} (hp : p.Legal) (hn : n < p.numWin)
    (hraw : raw.toNat < 2 ^ p.adcW) :
    decode p (encode (.sample n raw)) = .instr (.sample n raw) := by
  rw [decode_sample (Laws.Layout.sample n raw).1]
  simp [decodeSample, encode, toNat_ofNat_window hp hn, hn, lowBits_eq_self hraw]

theorem decode_encode_poll (edge : Edge) (level : Level) :
    decode p (encode (.poll edge level)) = .instr (.poll edge level) := by
  rw [decode_poll (Laws.Layout.poll edge level).1, encode, selField_packCmd, dataField_packCmd]
  cases edge <;> cases level <;> rfl

theorem decode_encode_map (table : TableId) (index : Word) :
    decode p (encode (.map table index)) = .instr (.map table index) := by
  rw [decode_map (Laws.Layout.map table index).1]
  have hnum : (BitVec.ofNat 4 table.number).toNat = table.number :=
    (BitVec.toNat_ofNat _ 4).trans (Nat.mod_eq_of_lt (table.number_le.trans_lt (by decide)))
  simp [encode, decodeMap, hnum]

theorem decode_encode_pwmSet {value : Word} (hv : value.toNat < 2 ^ p.pwmW) :
    decode p (encode (.pwmSet value)) = .instr (.pwmSet value) := by
  rw [decode_pwmSet (Laws.Layout.pwmSet value).1]
  simp [encode, decodePwmSet, lowBits_eq_self hv]

theorem decode_encode_pwmEnable (p : Params) :
    decode p (encode .pwmEnable) = .instr .pwmEnable := by
  rw [decode_pwmEnable Laws.Layout.pwmEnable.1]
  simp [encode]

theorem decode_encode_pwmDisable (p : Params) :
    decode p (encode .pwmDisable) = .instr .pwmDisable := by
  rw [decode_pwmDisable Laws.Layout.pwmDisable.1]
  simp [encode]

theorem decode_encode (hp : p.Legal) (hi : i.wellFormed p = true) :
    decode p (encode i) = .instr i := by
  cases i with
  | nop => exact Machine.decode_encode_nop p
  | sample n raw =>
    obtain ⟨hn, hraw⟩ : n < p.numWin ∧ raw.toNat < 2 ^ p.adcW := by
      simpa [Instr.wellFormed] using hi
    exact decode_encode_sample hp hn hraw
  | poll edge level => exact decode_encode_poll edge level
  | map table index => exact decode_encode_map table index
  | pwmEnable => exact decode_encode_pwmEnable p
  | pwmDisable => exact decode_encode_pwmDisable p
  | pwmSet value => exact decode_encode_pwmSet (by simpa [Instr.wellFormed] using hi)

/-! ### Encoding a decoded word -/

/-- The bits of DATA that the command of an opcode reads, the ignored ones 0 (R67). -/
def operandBits (p : Params) (op : BitVec 4) (data : Word) : Word :=
  match op.toNat with
  | 1 => lowBits p.adcW data
  | 2 => lowBits 1 data
  | 3 => data
  | 6 => lowBits p.pwmW data
  | _ => 0

/-- POLL's SEL is its edge bit where the decoder accepts it (R58). -/
theorem ofNat_edgeBit {sel : BitVec 4} (h : sel.toNat ≤ 1) :
    BitVec.ofNat 4 (sel.getLsbD 0).toNat = sel := by
  revert sel; decide

/-- POLL's level bit is the low bit of DATA (R58). -/
theorem ofNat_levelBit (data : Word) :
    BitVec.ofNat 16 (data.getLsbD 0).toNat = lowBits 1 data := by
  apply BitVec.eq_of_toNat_eq
  rw [lowBits_toNat, BitVec.getLsbD, Nat.testBit_zero]
  obtain h | h := Nat.mod_two_eq_zero_or_one data.toNat <;> simp [h]

/-- An accepted word and the encoder's word for its instruction agree in OP, SEL and the operand's
bits; the encoder's has 0 elsewhere (R72). -/
theorem encode_of_decode (h : decode p w = .instr i) :
    encode i = packCmd (opField w) (selField w) 0 (operandBits p (opField w) (dataField w)) := by
  obtain ⟨hop, hsel, rfl⟩ | ⟨hop, -, rfl⟩ | ⟨hop, hsel, rfl⟩ | ⟨hop, t, ht, rfl⟩ |
    ⟨hop, hsel, rfl⟩ | ⟨hop, hsel, rfl⟩ | ⟨hop, hsel, rfl⟩ := decode_cases h
  case inr.inl => simp [encode, operandBits, hop]
  case inr.inr.inl =>
    rw [encode, Edge.bit_ofBit, Level.bit_ofBit, ofNat_edgeBit hsel, ofNat_levelBit, hop]
    rfl
  case inr.inr.inr.inl => simp [encode, operandBits, hop, TableId.number_of_ofNumber ht]
  all_goals simp [encode, operandBits, hop, hsel]

end Sys2Proof
end

section
/-! The statements about the encoder and the decoder together. -/

namespace Sys2Proof.Machine

/-- Settles O1, by cases on the instruction: OP names its command, and a well-formed operand fits
its field. -/
theorem decodeOfEncodeIsIdentity : Obligations.DecodeOfEncodeIsIdentity :=
  fun _ _ => decode_encode

/-- Settles O2: the encoder's word has the word's fields with `operandBits` for DATA, read off by
opcode. -/
theorem encodeOfDecodeClearsIgnoredBits : Obligations.EncodeOfDecodeClearsIgnoredBits := by
  intro p w i _ hd
  rw [encode_of_decode hd]
  refine ⟨decode_wellFormed hd, opField_packCmd .., selField_packCmd .., rsvField_packCmd .., ?_⟩
  rw [dataField_packCmd]
  refine ⟨?_, ?_, ?_, ?_, ?_⟩
  case refine_5 => rintro (hop | hop | hop) <;> rw [hop] <;> rfl
  all_goals
    intro hop
    rw [hop]
    rfl

end Sys2Proof.Machine
end

section
/-! The machine's invariant by parts (R24, R26, R126, R133): the windows, the block's registers, the
timer; and that an edge keeps each part. -/

namespace Sys2Proof.Machine

variable {p : Params} {s t : State}

/-! ### The timer -/

/-- The timer's part of the invariant (R133, R135). -/
structure Timer.Ok (p : Params) (t : Timer) : Prop where
  cnt_le       : t.cnt ≤ p.pwmTop
  active_fits  : t.active.toNat < 2 ^ p.pwmW
  irq_at_start : t.irq = true → t.cnt = 0

theorem Timer.zero_ok (p : Params) : Timer.Ok p Timer.zero :=
  ⟨Nat.zero_le _, Nat.two_pow_pos _, fun _ => rfl⟩

/-- A period starts sound on any compare value of PWM_W bits. -/
theorem Timer.Ok.of_start {cmp : Word} (hcmp : cmp.toNat < 2 ^ p.pwmW) (irq : Bool) :
    Timer.Ok p { cnt := 0, active := cmp, irq := irq } :=
  ⟨Nat.zero_le _, hcmp, fun _ => rfl⟩

/-- In every branch of R134 the timer stays sound. -/
theorem timerStep_keeps_ok {u : Timer} {cmp : Word} (h : Timer.Ok p u) (hp : p.Legal)
    (hcmp : cmp.toNat < 2 ^ p.pwmW) (rst en : Bool) : Timer.Ok p (timerStep p rst en cmp u) := by
  match rst, en with
  | true, _ => exact Timer.zero_ok p
  | false, false => exact .of_start hcmp false
  | false, true =>
    obtain hcnt | hcnt := h.cnt_le.lt_or_eq
    · rw [timerStep_within p cmp u hp hcnt]
      exact ⟨hcnt, h.active_fits, nofun⟩
    · rw [timerStep_boundary p cmp u hcnt]
      exact .of_start hcmp true

/-! ### The block's registers -/

/-- The part of the invariant about `pwm_cmp` and the response registers (R26, R126). -/
structure State.RegistersOk (s : State) : Prop where
  cmp_fits : s.pwmCmp.toNat < 2 ^ s.cfg.pwmW
  err_data : s.rspErr = true → s.rspData = 0

theorem exec_keeps_cmp_fits {i : Instr} (h : s.pwmCmp.toNat < 2 ^ s.cfg.pwmW)
    (he : exec i s = .next t) : t.pwmCmp.toNat < 2 ^ s.cfg.pwmW := by
  obtain ⟨hkept, -⟩ | ⟨v, -, hset⟩ := exec_pwmCmp_cases he
  · rwa [hkept]
  · rw [hset]
    exact lowBits_lt s.cfg.pwmW v

/-- A command keeps the error bit and the data, clears the error bit, or sets it with data 0
(R126). -/
theorem exec_keeps_err_data {i : Instr} (h : s.rspErr = true → s.rspData = 0)
    (he : exec i s = .next t) : t.rspErr = true → t.rspData = 0 := by
  obtain ⟨-, rfl⟩ | ⟨_, _, -, -, rfl⟩ | ⟨_, _, -, -, rfl⟩ | ⟨_, _, -, rfl⟩ | ⟨_, _, -, rfl⟩ |
    ⟨_, -, rfl⟩ | ⟨_, -, rfl⟩ := exec_cases he
  case inr.inr.inl => exact fun _ => rfl
  case inl | inr.inr.inr.inr.inr.inl | inr.inr.inr.inr.inr.inr => exact h
  all_goals exact nofun

theorem step_keeps_registersOk (h : s.RegistersOk) (hs : step s = .next t) : t.RegistersOk := by
  obtain ⟨-, rfl⟩ | ⟨-, rfl⟩ | ⟨_, -, rfl⟩ | ⟨i, u, -, he, rfl⟩ := step_cases hs
  · exact ⟨Nat.two_pow_pos _, nofun⟩
  · exact ⟨h.cmp_fits, h.err_data⟩
  · exact ⟨h.cmp_fits, fun _ => rfl⟩
  · obtain ⟨_, hu, hcfg, -⟩ := exec_next i s.accept
    obtain rfl : u = _ := by simpa [he] using hu
    have hcmp := exec_keeps_cmp_fits (s := s.accept) h.cmp_fits he
    have herr := exec_keeps_err_data (s := s.accept) h.err_data he
    exact ⟨by rwa [State.withTimer_pwmCmp, State.withTimer_cfg, hcfg], herr⟩

/-! ### The whole invariant -/

theorem State.inv_iff :
    s.Inv ↔ s.cfg.Legal ∧ s.WindowsOk s.cfg ∧ s.RegistersOk ∧ Timer.Ok s.cfg s.timer where
  mp h := ⟨h.cfg_legal, h.windowsOk, ⟨h.cmp_fits, h.err_data⟩,
    ⟨h.cnt_le, h.active_fits, h.irq_at_start⟩⟩
  mpr := fun ⟨hp, hw, hr, ht⟩ =>
    { cfg_legal := hp, wins_length := hw.wins_length, wins_ok := hw.wins_ok
      cmp_fits := hr.cmp_fits, err_data := hr.err_data
      cnt_le := ht.cnt_le, active_fits := ht.active_fits, irq_at_start := ht.irq_at_start }

theorem step_keeps_inv (h : s.Inv) (hs : step s = .next t) : t.Inv := by
  obtain ⟨hp, hwins, hregs, htimer⟩ := State.inv_iff.mp h
  rw [State.inv_iff, step_keeps_cfg hs, step_timer hs]
  exact ⟨hp, step_keeps_windowsOk hp.one_le_windowN hwins hs, step_keeps_registersOk hregs hs,
    timerStep_keeps_ok htimer hp h.cmp_fits _ _⟩

theorem resetOf_inv (hp : p.Legal) : (State.resetOf p).Inv :=
  State.inv_iff.mpr ⟨hp, resetOf_windowsOk hp.one_le_windowN, ⟨Nat.two_pow_pos _, nofun⟩,
    Timer.zero_ok p⟩

end Sys2Proof.Machine
end

section
/-! The statements about the invariant. -/

namespace Sys2Proof.Machine

/-- Settles O14: every edge keeps each part of the invariant, the windows, the registers and the
timer. -/
theorem stepKeepsInvariant : Obligations.StepKeepsInvariant :=
  fun _ _ => step_keeps_inv

/-- Settles O15: reset zeroes every register and window, and the free values of `State.reset` are
legal. -/
theorem resetMeetsInvariant : Obligations.ResetMeetsInvariant :=
  ⟨fun _ => resetOf_inv, resetOf_inv Config.default_legal⟩

end Sys2Proof.Machine
end

section
/-! The edge that accepts one command (R127), and what an edge does not read: the timer. -/

namespace Sys2Proof.Machine

variable {s t : State} {i : Instr}

/-! ### The accepting edge -/

/-- An edge that presents a valid command runs it, with the input consumed, and moves the timer from
its pre-edge state. -/
theorem step_of_decode {e : PortInput} {rest : List PortInput} (hin : s.inputs = e :: rest)
    (hr : e.rst = false) (hv : e.cmdValid = true) (hd : decode s.cfg e.cmd = .instr i)
    (he : exec i { s with inputs := rest } = .next t) :
    step s = .next (t.withTimer (timerStep s.cfg false s.pwmEn s.pwmCmp s.timer)) := by
  obtain rfl : s.nextInput = e := nextInput_of_inputs hin
  have hacc : s.accept = { s with inputs := rest } := by rw [State.accept, hin, List.tail_cons]
  rw [step_of_command (fetch_of_command hr hv hd) (hacc ▸ he), State.timerAfter, hr]
  rfl

/-- An input that presents a command holds no reset. -/
theorem rst_of_instr? {p : Params} {e : PortInput} (h : e.instr? p = some i) : e.rst = false := by
  unfold PortInput.instr? at h
  split at h
  case isTrue hv => exact hv.1
  case isFalse => cases h

theorem State.setEnable_of_eq {b : Bool} (h : s.pwmEn = b) : s.setEnable b = s := by
  rw [State.setEnable, ← h]

/-! ### The timer is read by the timer alone -/

/-- No command reads or writes the timer. -/
theorem exec_withTimer (h : exec i s = .next t) (u : Timer) :
    exec i (s.withTimer u) = .next (t.withTimer u) := by
  cases i with
  | sample w raw =>
    by_cases hw : w < s.cfg.numWin
    · rw [exec_sample s raw hw] at h
      cases h
      exact exec_sample (s.withTimer u) raw hw
    · rw [exec_sample_invalid s raw (Nat.not_lt.mp hw)] at h
      cases h
      exact exec_sample_invalid (s.withTimer u) raw (Nat.not_lt.mp hw)
  | _ => cases h; rfl

/-- An edge fetches the same, and leaves the same block, whatever the timer holds. -/
theorem step_withTimer (h : step s = .next t) (u : Timer) :
    step (s.withTimer u) = .next (t.withTimer (s.withTimer u).timerAfter) := by
  obtain ⟨hf, rfl⟩ | ⟨hf, rfl⟩ | ⟨_, hf, rfl⟩ | ⟨i, v, hf, he, rfl⟩ := step_cases h
  · exact step_of_reset (s := s.withTimer u) hf
  · exact step_of_idle (s := s.withTimer u) hf
  · exact step_of_invalid (s := s.withTimer u) hf
  · exact step_of_command (s := s.withTimer u) (t := v.withTimer u) hf (exec_withTimer he u)

/-- The pulse follows exactly the boundary branch of R134. -/
theorem timerStep_irq_iff {p : Params} {rst en : Bool} {cmp : Word} {u : Timer} :
    (timerStep p rst en cmp u).irq = true ↔ rst = false ∧ en = true ∧ u.cnt = p.pwmTop := by
  match rst, en with
  | true, _ => exact iff_of_false nofun nofun
  | false, false => exact iff_of_false nofun nofun
  | false, true =>
    by_cases hcnt : u.cnt = p.pwmTop
    · simp [timerStep_boundary p cmp u hcnt, hcnt]
    · simp [timerStep, hcnt]

end Sys2Proof.Machine
end

section
/-! The statements about one edge: the command it runs, the timer beside it, and a word that comes
in bytes. -/

namespace Sys2Proof.Machine

/-- Settles O49: the timer after the edge has the pulse on the boundary branch alone. -/
theorem interruptMarksEachPeriodStart : Obligations.InterruptMarksEachPeriodStart := by
  intro s t hstep
  rw [step_timer hstep]
  exact timerStep_irq_iff

/-- Settles O55: with another timer the edge leaves the same block and some timer. -/
theorem blockIgnoresTheTimer : Obligations.BlockIgnoresTheTimer :=
  fun _ _ u hstep => ⟨_, step_withTimer hstep u⟩

/-- Settles O7: either order of arrival puts the bytes back at their places. -/
theorem bytesPresentTheWholeWord : Obligations.BytesPresentTheWholeWord := by
  intro s w
  have hword := congrArg (fun c => s.present (.command c)) (cmdOfBytes_cmdByte w)
  constructor <;> (intro horder; rw [State.presentBytes, horder]; exact hword)

/-- Settles O8: the command completes on the state with the input consumed, and the timer of that
edge is the one the step sets. -/
theorem stepRunsTheDecodedCommand : Obligations.StepRunsTheDecodedCommand := by
  intro s e rest i hin hr hv hd
  obtain ⟨t, he, -⟩ := exec_next i { s with inputs := rest }
  rw [step_of_decode hin hr hv hd he, he]
  rfl

/-- Settles O20: a window in range is answered with the error bit 0, one out of range with
`invalid()`. -/
theorem sampleErrsOnlyOutOfRange : Obligations.SampleErrsOnlyOutOfRange := by
  refine fun s w raw => ⟨fun hw => ⟨_, exec_sample s raw hw, rfl⟩, exec_sample_invalid s raw,
    fun c hop hsel => ?_⟩
  rw [decode_sample hop, decodeSample, if_neg (Nat.not_lt.mpr hsel)]

/-- Settles O53: the timer's boundary branch reads the pre-edge `pwm_en` and `pwm_cmp`, which the
command of that edge then changes. -/
theorem boundaryUsesPreEdgeValues : Obligations.BoundaryUsesPreEdgeValues := by
  intro s e hen hcnt
  obtain ⟨t, ht, -⟩ := step_next (s.present e)
  have htimer : e.rst = false → t.timer = { cnt := 0, active := s.pwmCmp, irq := true } :=
    fun hr => step_timer_boundary (s := s.present e) hr hen hcnt ht
  refine ⟨fun v hi => ⟨t, ht, ?_, ?_⟩, fun hi => ⟨t, ht, ?_, ?_⟩⟩
  · rw [step_pwmCmp (s := s.present e) (rst_of_instr? hi) ht, State.nextInput_present,
      State.present_cfg, compare?_eq_some_iff.mpr hi, Option.getD_some]
  · rw [htimer (rst_of_instr? hi)]
    exact ⟨rfl, rfl⟩
  · have hf : (s.present e).fetch = .command .pwmDisable := instr?_eq_some_iff.mp hi
    rw [step_of_command hf (exec_pwmDisable _)] at ht
    cases ht
    rfl
  · rw [htimer (rst_of_instr? hi)]

/-- Settles O54: with `pwm_en` 1 already, PWM_ENABLE leaves the state that NOP leaves. -/
theorem enableWhileEnabledActsAsNop : Obligations.EnableWhileEnabledActsAsNop := by
  intro s hen
  rw [step_present_instr (decode_encode_pwmEnable s.cfg) (exec_pwmEnable s),
    step_present_instr (decode_encode_nop s.cfg) (exec_nop s), State.setEnable_of_eq hen]

end Sys2Proof.Machine
end

section
/-! Facts about tables, widths and the pin: a non-decreasing table is monotone in its index (R102),
`clog2` from above (R11), and how many counts of a period lie below a compare value (R136). -/

namespace Sys2Proof

/-! ### A non-decreasing table (R102) -/

theorem NonDecreasing.getElem_le {rom : List Word} (h : NonDecreasing rom) {i j : Nat} (hij : i ≤ j)
    (hj : j < rom.length) : (rom[i]'(hij.trans_lt hj)).toNat ≤ rom[j].toNat := by
  have hsorted : (rom.map BitVec.toNat).SortedLE := by
    rw [List.sortedLE_iff_isChain, List.isChain_map]
    exact h
  have hle := hsorted.getElem_le_getElem_of_le (hi := by simpa using hij.trans_lt hj)
    (hj := by simpa using hj) hij
  rwa [List.getElem_map, List.getElem_map] at hle

theorem Params.Legal.semitone_nonDecreasing {p : Params} (h : p.Legal) :
    NonDecreasing p.tables.semitone := by
  obtain ⟨-, -, -, -, -, -, -, -, -, -, hmono⟩ := h
  exact hmono

namespace Machine

/-- The saturate stage is monotone, and so is the table behind it (R107). -/
theorem romRead_semitone_mono {p : Params} (hp : p.Legal) {i j : Word} (hij : i.toNat ≤ j.toNat) :
    (romRead p .semitone (saturateIndex p .semitone i)).toNat ≤
      (romRead p .semitone (saturateIndex p .semitone j)).toNat := by
  have hsat : saturateIndex p .semitone i ≤ saturateIndex p .semitone j := min_le_min_right _ hij
  have hj := saturateIndex_lt hp .semitone j
  rw [romRead, romRead, List.getD_eq_getElem _ _ (hsat.trans_lt hj), List.getD_eq_getElem _ _ hj]
  exact NonDecreasing.getElem_le hp.semitone_nonDecreasing hsat hj

/-! ### The width of a count (R11) -/

theorem clog2_le {n k : Nat} (h : n ≤ 2 ^ k) : clog2 n ≤ k := by
  unfold clog2
  split
  case isTrue => exact Nat.zero_le k
  case isFalse hn =>
    exact (Nat.log2_lt (by omega)).mpr (by omega)

/-! ### The pin (R136) -/

theorem length_filter_range_lt (m n : Nat) :
    ((List.range n).filter (· < m)).length = min m n := by
  rw [← List.Ico.zero_bot, List.Ico.filter_lt, List.Ico.length, Nat.sub_zero, min_comm]

theorem State.pwmPin_eq_high_iff {s : State} (h : s.pwmEn = true) :
    s.pwmPin = .high ↔ s.timer.cnt < s.timer.active.toNat := by
  simp [State.pwmPin, h]

theorem State.pwmPin_eq_low_iff {s : State} (h : s.pwmEn = true) :
    s.pwmPin = .low ↔ s.timer.active.toNat ≤ s.timer.cnt := by
  simp [State.pwmPin, h]

end Machine

end Sys2Proof
end

section
/-! The statements about widths, old readings, the SEMITONE table, `pwm_cmp` along a run, and the
pin. -/

namespace Sys2Proof.Machine

/-- Settles O17: `clog2(n)` is one more than the logarithm of `n - 1`. -/
theorem clog2IsSmallest : Obligations.Clog2IsSmallest :=
  fun n _ => ⟨le_two_pow_clog2 n, fun _ => clog2_le⟩

/-- Settles O26: the answer averages the last WINDOW_N readings, and that many have come since the
start. -/
theorem oldReadingsAreForgotten : Obligations.OldReadingsAreForgotten := by
  intro s w r es rest e hinv hes he hmany
  have hok : State.WindowsOk s.cfg { s with inputs := es ++ e :: rest } :=
    hinv.windowsOk.congr rfl rfl
  obtain ⟨t, ht, hvalid, herr, hdata⟩ := run_answers_average hok hinv.cfg_legal hes he rfl
  have hlen : s.cfg.windowN ≤ (readings s.cfg w es ++ [r]).length := by simpa using hmany
  exact ⟨t, ht, hvalid, herr, by rw [hdata, lastReadings_append_of_le _ hlen]⟩

/-- Settles O36: MAP answers the entry at the saturated index, and both are monotone. -/
theorem semitoneIsMonotone : Obligations.SemitoneIsMonotone :=
  fun s i j hp hij =>
    ⟨_, _, exec_map s .semitone i, exec_map s .semitone j, romRead_semitone_mono hp hij⟩

/-- Settles O43: the run exists, and along it the last value written stays. -/
theorem lastCompareWriteWins : Obligations.LastCompareWriteWins := by
  intro s es rest hes
  obtain ⟨t, ht, -⟩ := exists_reaches es.length { s with inputs := es ++ rest }
  exact ⟨t, ht, reaches_pwmCmp (s := { s with inputs := es ++ rest }) ht hes rfl⟩

/-- Settles O47: the pin compares the count with the latched value, and of the counts of a period
as many lie below that value as the smaller of it and PWM_TOP + 1. -/
theorem pinIsHighBelowTheCompareValue : Obligations.PinIsHighBelowTheCompareValue := by
  refine fun s => ⟨State.pwmPin_of_disabled, fun hen =>
    ⟨State.pwmPin_eq_high_iff hen, ?width, fun hzero => ?never, fun hinv habove => ?always⟩⟩
  case width =>
    rw [← length_filter_range_lt]
    refine congrArg List.length (List.filter_congr fun c _ => ?_)
    rw [decide_eq_decide]
    exact State.pwmPin_eq_high_iff hen
  case never =>
    rw [State.pwmPin_eq_low_iff hen, hzero]
    exact Nat.zero_le _
  case always =>
    rw [State.pwmPin_eq_high_iff hen]
    exact hinv.cnt_le.trans_lt habove

end Sys2Proof.Machine
end

section
/-! A PWM_SET on its way to the timer (R164): to the end of the running period while enabled, to the
next PWM_ENABLE while disabled. -/

namespace Sys2Proof.Machine

variable {s t : State} {es rest : List PortInput} {e : PortInput} {v : Word}

/-! ### The edge of the PWM_SET -/

theorem step_sets_compare (hi : s.nextInput.instr? s.cfg = some (.pwmSet v))
    (h : step s = .next t) : t.pwmCmp = v ∧ t.pwmEn = s.pwmEn := by
  have hrst := rst_of_instr? hi
  refine ⟨?_, ?_⟩
  · rw [step_pwmCmp hrst h, compare?_eq_some_iff.mpr hi, Option.getD_some]
  · rw [step_of_command (instr?_eq_some_iff.mp hi) (exec_pwmSet _ v)] at h
    cases h
    rfl

/-- An input that presents another command than PWM_DISABLE keeps the driver enabled. -/
theorem keepsEnabled_of_instr? {p : Params} {i : Instr} (h : e.instr? p = some i)
    (hi : i ≠ .pwmDisable) : e.keepsEnabled p :=
  ⟨rst_of_instr? h, by rw [h]; exact fun heq => hi (Option.some.inj heq)⟩

/-- An enabled timer's edge ends the period, or counts up and keeps the period's compare value
(R134). -/
theorem step_timer_enabled (hp : s.cfg.Legal) (hr : s.nextInput.rst = false) (hen : s.pwmEn = true)
    (hcnt : s.timer.cnt ≤ s.cfg.pwmTop) (h : step s = .next t) :
    t.timer.cnt = (if s.timer.cnt = s.cfg.pwmTop then 0 else s.timer.cnt + 1) ∧
      t.timer.active = if s.timer.cnt = s.cfg.pwmTop then s.pwmCmp else s.timer.active := by
  by_cases htop : s.timer.cnt = s.cfg.pwmTop
  · rw [step_timer_boundary hr hen htop h, if_pos htop, if_pos htop]
    exact ⟨rfl, rfl⟩
  · rw [step_timer_within hp hr hen (hcnt.lt_of_ne htop) h, if_neg htop, if_neg htop]
    exact ⟨rfl, rfl⟩

/-! ### To the end of the period -/

section ToTheBoundary

variable {p : Params} (hcfg : s.cfg = p) (hp : p.Legal) (hen : s.pwmEn = true)
  (hes : ∀ x ∈ es, x.keepsEnabled p) (hin : s.inputs = es ++ rest)
  (hcnt : s.timer.cnt + es.length = p.pwmTop + 1)

include hcfg hp hen hes hin hcnt

/-- Until the boundary the period keeps its compare value (R134). -/
theorem period_keeps_active {k : Nat} (hk : k < es.length) :
    ∃ t, Reaches k s t ∧ t.timer.active = s.timer.active := by
  subst hcfg
  have htake : (es.take k).length = k := List.length_take_of_le hk.le
  have hin' : s.inputs = es.take k ++ (es.drop k ++ rest) := by
    rw [← List.append_assoc, List.take_append_drop, hin]
  obtain ⟨t, ht, -, -, -, hact⟩ := run_within_period hp hen
    (fun x hx => hes x (List.mem_of_mem_take hx)) hin' (by omega)
  exact ⟨t, htake ▸ ht, hact⟩

/-- With no PWM_SET before the boundary's edge, the next period has the present `pwm_cmp`. -/
theorem boundary_takes_compare (hcmp : ∀ x ∈ es.dropLast, x.compare? p = none) (hne : es ≠ []) :
    ∃ t, Reaches es.length s t ∧ t.pwmEn = true ∧
      t.timer = { cnt := 0, active := s.pwmCmp, irq := true } := by
  subst hcfg
  obtain ⟨init, e, rfl⟩ := (List.eq_nil_or_concat' es).resolve_left hne
  rw [List.dropLast_concat] at hcmp
  rw [List.length_append, List.length_singleton] at hcnt ⊢
  have hinit : ∀ x ∈ init, x.keepsEnabled s.cfg := fun x hx => hes x (List.mem_append_left _ hx)
  have hin' : s.inputs = init ++ e :: rest := hin.trans (List.append_assoc init [e] rest)
  obtain ⟨u, t, hu, ht, htimer⟩ := run_past_boundary hp hen hinit
    (hes e List.mem_concat_self).1 hin' (by omega)
  have hkept : u.pwmCmp = s.pwmCmp :=
    reaches_keeps_pwmCmp hu (fun x hx => (hinit x hx).1) hin' hcmp
  have hent : t.pwmEn = true :=
    reaches_keeps_enabled (es := init ++ [e]) (by simpa using ht) hen hes hin
  exact ⟨t, ht, hent, by rw [htimer, hkept]⟩

end ToTheBoundary

/-! ### While disabled -/

theorem step_keeps_disabled (hen : s.pwmEn = false) (hr : s.nextInput.rst = false)
    (hi : s.nextInput.instr? s.cfg ≠ some .pwmEnable) (h : step s = .next t) : t.pwmEn = false := by
  obtain ⟨hf, -⟩ | ⟨-, rfl⟩ | ⟨_, -, rfl⟩ | ⟨i, u, hf, he, rfl⟩ := step_cases h
  · exact absurd hf (fetch_ne_reset hr)
  · exact hen
  · exact hen
  · obtain hkept | ⟨rfl, -⟩ | ⟨-, hset⟩ := exec_pwmEn_cases he
    · exact hkept.trans hen
    · exact absurd (instr?_eq_some_iff.mpr hf) hi
    · exact hset

theorem reaches_keeps_disabled (h : Reaches es.length s t) (hen : s.pwmEn = false)
    (hes : ∀ x ∈ es, x.rst = false ∧ x.instr? s.cfg ≠ some .pwmEnable)
    (hin : s.inputs = es ++ rest) : t.pwmEn = false := by
  induction es generalizing s with
  | nil => rwa [reaches_zero.mp h]
  | cons e es ih =>
    obtain ⟨⟨hr, hi⟩, hes⟩ := List.forall_mem_cons.mp hes
    obtain ⟨u, hu, hrun⟩ := reaches_succ.mp h
    have hnext : s.nextInput = e := nextInput_of_inputs hin
    have henu := step_keeps_disabled hen (hnext ▸ hr) (hnext ▸ hi) hu
    exact ih hrun henu (step_keeps_cfg hu ▸ hes) (by simp [step_inputs hu, hin])

/-- The first period after enabling has the compare value held while disabled, with no PWM_SET since
(R109, R134). -/
theorem enabling_takes_compare (hen : s.pwmEn = false)
    (hes : ∀ x ∈ es, x.rst = false ∧ x.instr? s.cfg ≠ some .pwmEnable ∧ x.compare? s.cfg = none)
    (he : e.instr? s.cfg = some .pwmEnable) (hin : s.inputs = es ++ e :: rest) :
    ∃ t, Reaches (es.length + 1) s t ∧ t.pwmEn = true ∧
      t.timer = { cnt := 0, active := s.pwmCmp, irq := false } := by
  obtain ⟨u, hu, hinu⟩ := exists_reaches es.length s
  have hdis : u.pwmEn = false :=
    reaches_keeps_disabled hu hen (fun x hx => ⟨(hes x hx).1, (hes x hx).2.1⟩) hin
  have hcmp : u.pwmCmp = s.pwmCmp :=
    reaches_keeps_pwmCmp hu (fun x hx => (hes x hx).1) hin fun x hx => (hes x hx).2.2
  have hnext : u.nextInput = e := nextInput_of_inputs (es := rest) (by simp [hinu, hin])
  obtain ⟨t, ht, -, -, hent, htimer⟩ :=
    step_enables hdis (by rw [hnext, reaches_keeps_cfg hu, he])
  exact ⟨t, reaches_add.mpr ⟨u, hu, reaches_one.mpr ht⟩, hent, by rw [htimer, hcmp]⟩

end Sys2Proof.Machine
end

section
/-! The statement about the latency of a PWM_SET. -/

namespace Sys2Proof.Machine

/-- Settles O51: the PWM_SET's own edge moves the timer on its old value; from there the period ends
after `d` edges and the new one takes `pwm_cmp`, or the next PWM_ENABLE takes it. -/
theorem compareValueReachesTheNextPeriod : Obligations.CompareValueReachesTheNextPeriod := by
  refine ⟨fun s e es rest v d hinv hen hi hd hlen hes hcmp => ?enabled,
    fun s e f es rest v hinv hen hi hes hf => ?disabled⟩
  case enabled =>
    obtain ⟨u, hu, hcfg, hin, -⟩ := step_next { s with inputs := e :: es ++ rest }
    obtain ⟨hcmpu, henu⟩ := step_sets_compare hi hu
    obtain ⟨hcntu, hactu⟩ := step_timer_enabled (s := { s with inputs := e :: es ++ rest })
      hinv.cfg_legal (rst_of_instr? hi) hen hinv.cnt_le hu
    have hle := hinv.cnt_le
    have hcount : u.timer.cnt + es.length = s.cfg.pwmTop + 1 := by
      rw [hcntu, hlen, hd]
      dsimp only
      split <;> omega
    have hpos : 1 ≤ d := by rw [hd]; split <;> omega
    have hen' : u.pwmEn = true := henu.trans hen
    refine ⟨hpos, by omega, fun k hk => ?_, ?_⟩
    · obtain ⟨t, ht, hact⟩ :=
        period_keeps_active hcfg hinv.cfg_legal hen' hes hin hcount (hlen ▸ hk)
      exact ⟨t, reaches_after_step hu ht, hact.trans hactu⟩
    · obtain ⟨t, ht, hent, htimer⟩ := boundary_takes_compare hcfg hinv.cfg_legal hen' hes hin hcount
        hcmp (List.ne_nil_of_length_pos (hlen ▸ hpos))
      exact ⟨t, reaches_after_step hu (hlen ▸ ht), hent, by rw [htimer, hcmpu]⟩
  case disabled =>
    obtain ⟨u, hu, hcfg, hin, -⟩ := step_next { s with inputs := e :: es ++ f :: rest }
    obtain ⟨hcmpu, henu⟩ := step_sets_compare hi hu
    obtain ⟨t, ht, hent, htimer⟩ :=
      enabling_takes_compare (henu.trans hen) (hcfg ▸ hes) (hcfg ▸ hf) hin
    exact ⟨t, reaches_succ.mpr ⟨u, hu, ht⟩, hent, by rw [htimer, hcmpu]⟩

end Sys2Proof.Machine
end

section
/-! The assembler's forms (R69): what each line of a mnemonic and its operands parses to, the number
its word is, and that an accepted command is well formed. -/

namespace Sys2Proof

/-! ### The words of R72 as numbers: OP, SEL and DATA at their places, none of them cut -/

theorem encode_sample_eq_ofNat {p : Params} (hp : p.Legal) {x y : Nat} (hx : x < p.numWin)
    (hy : y < 2 ^ 16) :
    encode (.sample x (BitVec.ofNat 16 y)) = BitVec.ofNat 32 (1 * 2 ^ 28 + x * 2 ^ 24 + y) :=
  Machine.packCmd_eq_ofNat (by
    rw [toNat_ofNat_window hp hx, BitVec.toNat_ofNat, Nat.mod_eq_of_lt hy]; rfl)

theorem encode_poll_eq_ofNat (edge : Edge) (level : Level) :
    encode (.poll edge level) =
      BitVec.ofNat 32 (2 * 2 ^ 28 + edge.bit.toNat * 2 ^ 24 + level.bit.toNat) := by
  cases edge <;> cases level <;> rfl

theorem encode_map_eq_ofNat (table : TableId) {y : Nat} (hy : y < 2 ^ 16) :
    encode (.map table (BitVec.ofNat 16 y)) =
      BitVec.ofNat 32 (3 * 2 ^ 28 + table.number * 2 ^ 24 + y) :=
  Machine.packCmd_eq_ofNat (by
    rw [BitVec.toNat_ofNat, BitVec.toNat_ofNat, Nat.mod_eq_of_lt hy,
      Nat.mod_eq_of_lt (table.number_le.trans_lt (by decide))]; rfl)

theorem encode_pwmSet_eq_ofNat {y : Nat} (hy : y < 2 ^ 16) :
    encode (.pwmSet (BitVec.ofNat 16 y)) = BitVec.ofNat 32 (6 * 2 ^ 28 + y) :=
  Machine.packCmd_eq_ofNat (by rw [BitVec.toNat_ofNat, Nat.mod_eq_of_lt hy]; rfl)

namespace Machine

variable {p : Params} {line : List Char} {i : Instr}

/-! ### Accepted commands -/

theorem assembleLine_of_parseLine (h : parseLine p line = .command i) :
    assembleLine p line = some (encode i) := by
  rw [assembleLine, h]

theorem asmLineOf_eq_command_iff {o : Option Instr} : asmLineOf o = .command i ↔ o = some i := by
  cases o <;> simp [asmLineOf]

/-- A line's command is that of some mnemonic and operands. -/
theorem parseCommand_of_parseLine (h : parseLine p line = .command i) :
    ∃ mnemonic operands, parseCommand p mnemonic operands = some i := by
  simp only [parseLine] at h
  split at h
  case isTrue => cases h
  case isFalse =>
    exact ⟨_, _, asmLineOf_eq_command_iff.mp h⟩

/-- Each operand parser accepts only what fits its field (R69). -/
theorem parseCommand_wellFormed {mnemonic : List Char} {operands : List (List Char)}
    (h : parseCommand p mnemonic operands = some i) : i.wellFormed p = true := by
  unfold parseCommand at h
  split at h
  · split_ifs at h <;> cases h <;> rfl
  · split_ifs at h
    obtain ⟨v, hv, rfl⟩ := Option.map_eq_some_iff.mp h
    simpa [Instr.wellFormed] using parseField_lt hv
  · split_ifs at h
    · obtain ⟨w, hw, h⟩ := Option.bind_eq_some_iff.mp h
      obtain ⟨v, hv, rfl⟩ := Option.map_eq_some_iff.mp h
      simpa [Instr.wellFormed] using ⟨parseWindow_lt hw, parseField_lt hv⟩
    · obtain ⟨e, -, h⟩ := Option.bind_eq_some_iff.mp h
      obtain ⟨l, -, rfl⟩ := Option.map_eq_some_iff.mp h
      rfl
    · obtain ⟨t, -, h⟩ := Option.bind_eq_some_iff.mp h
      obtain ⟨v, -, rfl⟩ := Option.map_eq_some_iff.mp h
      rfl
  · cases h

/-! ### The names of R69 -/

/-- Text that can stand as a mnemonic or an operand. -/
abbrev IsToken (l : List Char) : Prop := PlainText l ∧ l ≠ []

theorem isToken_of_literal {l : List Char} {v : Nat} (h : parseLiteral l = some v) : IsToken l :=
  ⟨parseLiteral_plain h, parseLiteral_ne_nil h⟩

theorem isToken_mnemonic :
    ∀ m ∈ ["NOP", "SAMPLE", "POLL", "MAP", "PWM_ENABLE", "PWM_DISABLE", "PWM_SET"],
      IsToken m.toList := by
  simp [IsToken, PlainText, isBlank]

theorem parseEdge_names : ∀ e ∈ [("RISING", 0), ("FALLING", 1)],
    IsToken e.1.toList ∧ ∃ edge, parseEdge e.1.toList = some edge ∧ edge.bit.toNat = e.2 := by
  simp only [List.forall_mem_cons]
  refine ⟨⟨?_, .rising, rfl, rfl⟩, ⟨?_, .falling, rfl, rfl⟩, nofun⟩ <;>
    simp [IsToken, PlainText, isBlank]

theorem parseLevel_names : ∀ l ∈ [("LOW", 0), ("0", 0), ("HIGH", 1), ("1", 1)],
    IsToken l.1.toList ∧ ∃ level, parseLevel l.1.toList = some level ∧ level.bit.toNat = l.2 := by
  simp only [List.forall_mem_cons]
  refine ⟨⟨?_, .low, rfl, rfl⟩, ⟨?_, .low, rfl, rfl⟩, ⟨?_, .high, rfl, rfl⟩,
    ⟨?_, .high, rfl, rfl⟩, nofun⟩ <;> simp [IsToken, PlainText, isBlank]

theorem parseTable_names :
    ∀ t ∈ [("FREQ", 0), ("EXP", 1), ("LOG", 2), ("SEMITONE", 3), ("MAJOR", 4)],
      IsToken t.1.toList ∧ ∃ table, parseTable t.1.toList = some table ∧ table.number = t.2 := by
  simp only [List.forall_mem_cons]
  refine ⟨⟨?_, .freq, rfl, rfl⟩, ⟨?_, .exp, rfl, rfl⟩, ⟨?_, .log, rfl, rfl⟩,
    ⟨?_, .semitone, rfl, rfl⟩, ⟨?_, .major, rfl, rfl⟩, nofun⟩ <;>
    simp [IsToken, PlainText, isBlank]

/-! ### The lines of R69, each parsed -/

section Forms

variable {m pre a b comment : List Char} {x y : Nat} (hc : LineEnd comment)

include hc

/-- A line of two operands, `pre` being the mnemonic with its blank. -/
theorem parseLine_two_operands (hm : IsToken m) (hpre : pre = m ++ [' ']) (ha : IsToken a)
    (hb : IsToken b) :
    parseLine p (pre ++ a ++ ", ".toList ++ b ++ comment) =
      asmLineOf (parseCommand p m [a, b]) := by
  rw [← parseLine_of_two hm.1 hm.2 ha.1 ha.2 hb.1 hb.2 hc, hpre]
  simp

/-- A line of one operand, `pre` being the mnemonic with its blank. -/
theorem parseLine_one_operand (hm : IsToken m) (hpre : pre = m ++ [' ']) (ha : IsToken a) :
    parseLine p (pre ++ a ++ comment) = asmLineOf (parseCommand p m [a]) := by
  rw [← parseLine_of_one hm.1 hm.2 ha.1 ha.2 hc, hpre]
  simp

theorem parseLine_sample (ha : parseLiteral a = some x) (hb : parseLiteral b = some y) :
    parseLine p ("SAMPLE ".toList ++ a ++ ", ".toList ++ b ++ comment) =
      if x < p.numWin ∧ y < 2 ^ p.adcW then .command (.sample x (BitVec.ofNat 16 y))
      else .refused := by
  have hcmd : parseCommand p "SAMPLE".toList [a, b] =
      (parseWindow p a).bind fun w => (parseField p.adcW b).map (.sample w) := rfl
  refine (parseLine_two_operands hc (isToken_mnemonic "SAMPLE" (by simp)) rfl
    (isToken_of_literal ha) (isToken_of_literal hb)).trans ?_
  rw [hcmd, parseWindow_of_literal ha, parseField_of_literal hb]
  by_cases hx : x < p.numWin <;> by_cases hy : y < 2 ^ p.adcW <;> simp [hx, hy, asmLineOf]

theorem parseLine_poll (ha : IsToken a) (hb : IsToken b) {edge : Edge} {level : Level}
    (hedge : parseEdge a = some edge) (hlevel : parseLevel b = some level) :
    parseLine p ("POLL ".toList ++ a ++ ", ".toList ++ b ++ comment) =
      .command (.poll edge level) := by
  have hcmd : parseCommand p "POLL".toList [a, b] =
      (parseEdge a).bind fun e => (parseLevel b).map (.poll e) := rfl
  refine (parseLine_two_operands hc (isToken_mnemonic "POLL" (by simp)) rfl ha hb).trans ?_
  rw [hcmd, hedge, hlevel]
  rfl

theorem parseLine_map (ha : IsToken a) {table : TableId} (htable : parseTable a = some table)
    (hb : parseLiteral b = some y) :
    parseLine p ("MAP ".toList ++ a ++ ", ".toList ++ b ++ comment) =
      if y < 2 ^ 16 then .command (.map table (BitVec.ofNat 16 y)) else .refused := by
  have hcmd : parseCommand p "MAP".toList [a, b] =
      (parseTable a).bind fun t => (parseField 16 b).map (.map t) := rfl
  refine (parseLine_two_operands hc (isToken_mnemonic "MAP" (by simp)) rfl ha
    (isToken_of_literal hb)).trans ?_
  rw [hcmd, htable, parseField_of_literal hb]
  split <;> rfl

theorem parseLine_pwmSet (hb : parseLiteral b = some y) :
    parseLine p ("PWM_SET ".toList ++ b ++ comment) =
      if y < 2 ^ p.pwmW then .command (.pwmSet (BitVec.ofNat 16 y)) else .refused := by
  have hcmd : parseCommand p "PWM_SET".toList [b] = (parseField p.pwmW b).map .pwmSet := rfl
  refine (parseLine_one_operand hc (isToken_mnemonic "PWM_SET" (by simp)) rfl
    (isToken_of_literal hb)).trans ?_
  rw [hcmd, parseField_of_literal hb]
  split <;> rfl

/-- The commands without an operand, each with its OP. -/
theorem parseLine_bare : ∀ m ∈ [("NOP", 0), ("PWM_ENABLE", 4), ("PWM_DISABLE", 5)],
    ∃ i, parseLine p (m.1.toList ++ comment) = .command i ∧
      encode i = BitVec.ofNat 32 (m.2 * 2 ^ 28) := by
  have hline (m : String) (hm : IsToken m.toList) :
      parseLine p (m.toList ++ comment) = asmLineOf (parseCommand p m.toList []) :=
    parseLine_of_mnemonic hm.1 hm.2 hc
  have hnop := hline "NOP" (isToken_mnemonic _ (by simp))
  have hen := hline "PWM_ENABLE" (isToken_mnemonic _ (by simp))
  have hdis := hline "PWM_DISABLE" (isToken_mnemonic _ (by simp))
  simp only [List.forall_mem_cons]
  exact ⟨⟨.nop, hnop, rfl⟩, ⟨.pwmEnable, hen, rfl⟩, ⟨.pwmDisable, hdis, rfl⟩, nofun⟩

end Forms

end Machine

end Sys2Proof
end

section
/-! The statements about the assembler. -/

namespace Sys2Proof.Machine

/-- Settles O6: the operand parsers refuse what does not fit. -/
theorem assembledCommandsAreWellFormed : Obligations.AssembledCommandsAreWellFormed := by
  intro p line i h
  obtain ⟨_, _, hcmd⟩ := parseCommand_of_parseLine h
  exact ⟨parseCommand_wellFormed hcmd, assembleLine_of_parseLine h⟩

/-- Settles O57: each form parses to its command where its numbers fit, and the command's word is
the number of its fields. -/
theorem assemblerWritesEachFieldOrRefuses : Obligations.AssemblerWritesEachFieldOrRefuses := by
  intro p a b comment line x y hp ha hb hc
  have ⟨⟨_, hadc⟩, _, _, ⟨_, hpwm⟩, _⟩ := hp
  have hword : ∀ {n : Nat}, n ≤ 16 → y < 2 ^ n → y < 2 ^ 16 := fun hn hy =>
    hy.trans_le (Nat.pow_le_pow_right Nat.two_pos hn)
  refine ⟨?sample, fun e he l hl => ?poll, fun t ht => ?map, fun m hm => ?bare, ?pwmSet⟩
  case sample =>
    rintro rfl
    have hline := parseLine_sample (p := p) hc ha hb
    refine ⟨fun ⟨hx, hy⟩ => ?_, fun hbad => hline.trans (if_neg (by omega))⟩
    rw [← encode_sample_eq_ofNat hp hx (hword hadc hy)]
    exact assembleLine_of_parseLine (hline.trans (if_pos ⟨hx, hy⟩))
  case poll =>
    rintro rfl
    obtain ⟨hte, edge, hedge, hbit⟩ := parseEdge_names e he
    obtain ⟨htl, level, hlevel, hlbit⟩ := parseLevel_names l hl
    rw [← hbit, ← hlbit, ← encode_poll_eq_ofNat]
    exact assembleLine_of_parseLine (parseLine_poll hc hte htl hedge hlevel)
  case map =>
    rintro rfl
    obtain ⟨htt, table, htable, hnum⟩ := parseTable_names t ht
    have hline := parseLine_map (p := p) hc htt htable hb
    refine ⟨fun hy => ?_, fun hbad => hline.trans (if_neg (by omega))⟩
    rw [← hnum, ← encode_map_eq_ofNat table hy]
    exact assembleLine_of_parseLine (hline.trans (if_pos hy))
  case bare =>
    rintro rfl
    obtain ⟨i, hline, hencode⟩ := parseLine_bare (p := p) hc m hm
    rw [← hencode]
    exact assembleLine_of_parseLine hline
  case pwmSet =>
    rintro rfl
    have hline := parseLine_pwmSet (p := p) hc hb
    refine ⟨fun hy => ?_, fun hbad => hline.trans (if_neg (by omega))⟩
    rw [← encode_pwmSet_eq_ofNat (hword hpwm hy)]
    exact assembleLine_of_parseLine (hline.trans (if_pos hy))

end Sys2Proof.Machine
end
